-- ==== Sys2Proof/Word.lean ====
section
/-! DEFINITION. The bit vectors of the block: storage words, counts, commands and responses. -/

namespace Sys2Proof

/-- One word of the bit storage, `W = 64` bits (R6). -/
abbrev Word := BitVec 64

/-- The width of `CAPACITY`, `CURSOR`, `OBSERVED`, `CNUM`, `CDEN` and the operand of NEW, `CAPW = 28` bits (R7). -/
abbrev Count := BitVec 28

/-- The width of `NWORDS`, 23 bits (R18). -/
abbrev WordCount := BitVec 23

/-- A command word, 32 bits (R50). -/
abbrev CommandWord := BitVec 32

/-- A response word, 64 bits (R55). -/
abbrev ResponseWord := BitVec 64

end Sys2Proof
end

