-- ==== Sys2Proof/Syntax.lean ====
section
/-! DEFINITION. The commands of the block: one constructor per row of spec/opcode_table.json. -/

namespace Sys2Proof

/-- The three commands (R51). The operand of REC is a Bool, `true` for on (R61). -/
inductive Instr where
  /-- NEW cap: create a counter of capacity `cap` (R64). -/
  | new (cap : Count)
  /-- REC v: record one observation (R67). Its mnemonic REC would clash with Lean's own `Instr.rec`. -/
  | record (v : Bool)
  /-- FRAC: return the fraction of on observations (R70). -/
  | frac
  deriving DecidableEq, Repr

end Sys2Proof
end

