-- ==== Sys2Proof/WellFormed.lean ====
section
/-! DEFINITION. Which command words spell a command (R52 to R54, R58) and which parameter values an instance
may have (R8). The checks read the masks of the opcode table; the decoder (Decode.lean) reads the fields.
Every term of `Instr` is well-formed by its type: each value of its operand is encodable (R52, R53). -/

namespace Sys2Proof

/-- Why a word is illegal: the three cases of R58. -/
inductive Illegal where
  /-- `op` is `0x0` or `0x4 .. 0xF`. -/
  | opcode
  /-- `op = 0x2` and `arg[27:1] != 0`. -/
  | recArg
  /-- `op = 0x3` and `arg != 0`. -/
  | fracArg
  deriving DecidableEq, Repr

/-- The word matches NEW's row: match `0x10000000` under mask `0xF0000000` (R52). -/
def isNewWord (w : CommandWord) : Bool := (w &&& 0xF0000000#32) == 0x10000000#32

/-- The word matches REC's row: match `0x20000000` under mask `0xFFFFFFFE` (R53). -/
def isRecWord (w : CommandWord) : Bool := (w &&& 0xFFFFFFFE#32) == 0x20000000#32

/-- The word matches FRAC's row: match `0x30000000` under mask `0xFFFFFFFF` (R54). -/
def isFracWord (w : CommandWord) : Bool := (w &&& 0xFFFFFFFF#32) == 0x30000000#32

/-- The word is one of the three commands; every other word is illegal (R58, R59). -/
def legalWord (w : CommandWord) : Bool := isNewWord w || isRecWord w || isFracWord w

/-- The range of `MAX_CAPACITY`: at least 1; its 28 bits give the upper bound (R8). -/
def legalMaxCapacity (m : Count) : Bool := 1 ≤ m.toNat

end Sys2Proof
end

