-- ==== Sys2Proof/Decode.lean ====
section
/-! DEFINITION. Decoding a command word, and after it the encoder, both from 30_encoding.md.
A command is one 32-bit word taken from the command port; the block has no bytes and no byte order (R35, R60). -/

namespace Sys2Proof

/-- The opcode field, bits 31:28 (R50). -/
def opField (w : CommandWord) : BitVec 4 := w.extractLsb' 28 4

/-- The operand field, bits 27:0 (R50). -/
def argField (w : CommandWord) : Count := w.extractLsb' 0 28

/-- Decoding reads the word alone and is total: a command or the reason it is illegal (R50 to R54, R58). -/
def decode (w : CommandWord) : Except Illegal Instr :=
  if opField w = 0x1#4 then
    .ok (.new (argField w))
  else if opField w = 0x2#4 then
    if (argField w).extractLsb' 1 27 = 0#27 then .ok (.record ((argField w).getLsbD 0))
    else .error .recArg
  else if opField w = 0x3#4 then
    if argField w = 0#28 then .ok .frac
    else .error .fracArg
  else
    .error .opcode

/-- The word of a command: the row's fixed bits with the operand below them (R52, R53, R54). -/
def encode : Instr → CommandWord
  | .new cap => 0x10000000#32 ||| cap.setWidth 32
  | .record v => 0x20000000#32 ||| (BitVec.ofBool v).setWidth 32
  | .frac => 0x30000000#32

/-- The fixed bits of a command's row of the opcode table, as a mask (R52, R53, R54). -/
def tableMask : Instr → CommandWord
  | .new _ => 0xF0000000#32
  | .record _ => 0xFFFFFFFE#32
  | .frac => 0xFFFFFFFF#32

/-- What the fixed bits of a command's row are (R52, R53, R54). -/
def tableMatch : Instr → CommandWord
  | .new _ => 0x10000000#32
  | .record _ => 0x20000000#32
  | .frac => 0x30000000#32

/-- The command word of `nbits` bits numbered as the opcode table numbers them; every bit above `nbits` is 0. -/
def tableWord (nbits w : Nat) : CommandWord := BitVec.ofNat 32 (w % 2 ^ nbits)

/-- What the decoder reads from a row's word. A row has at most 32 bits, the only command length (R50, R60). -/
def decodeTableWord (nbits w : Nat) : Option Instr :=
  if nbits ≤ 32 then
    match decode (tableWord nbits w) with
    | .ok i => some i
    | .error _ => none
  else none

end Sys2Proof
end

