-- ==== Sys2Proof/Machine/Response.lean ====
section
/-! DEFINITION. The response word: statuses, the builder of R55, the fields, and the value of a response (R74). -/

namespace Sys2Proof.Machine

/-- The six values of the status field (R56, R87). -/
inductive Status where
  | ok
  | invalidCapacity
  | uninitialized
  | noCounter
  | capacityTooLarge
  | illegalCommand
  deriving DecidableEq, Repr

/-- The code of a status (R56, R87). -/
def Status.code : Status → BitVec 4
  | .ok => 0
  | .invalidCapacity => 1
  | .uninitialized => 2
  | .noCounter => 3
  | .capacityTooLarge => 4
  | .illegalCommand => 5

/-- The status a code stands for; codes 6 to 15 stand for none (R56). -/
def Status.ofCode (c : BitVec 4) : Option Status :=
  if c = 0 then some .ok
  else if c = 1 then some .invalidCapacity
  else if c = 2 then some .uninitialized
  else if c = 3 then some .noCounter
  else if c = 4 then some .capacityTooLarge
  else if c = 5 then some .illegalCommand
  else none

/-- The word `{status[3:0], 0x0, zext_28(num), zext_28(den)}` (R55). -/
def responseWord (st : Status) (num den : Count) : ResponseWord :=
  (st.code ++ 0#4) ++ (num ++ den)

/-- The status field of a response, bits 63:60 (R55). -/
def responseStatus (r : ResponseWord) : BitVec 4 := r.extractLsb' 60 4

/-- Bits 59:56 of a response, always zero (R55). -/
def responseZero (r : ResponseWord) : BitVec 4 := r.extractLsb' 56 4

/-- The field NUM of a response, bits 55:28 (R55). -/
def responseNum (r : ResponseWord) : Count := r.extractLsb' 28 28

/-- The field DEN of a response, bits 27:0 (R55). -/
def responseDen (r : ResponseWord) : Count := r.extractLsb' 0 28

/-- `val(n, d)`, the rational a pair stands for (R74). R74 gives it for `d > 0` and for `(0, 0)`; that `val n 0` is 0
for `n > 0` too is the model's choice (DESIGN CHOICE, log entry 17), and no response carries such a pair (R57). -/
def val (n d : Nat) : ℚ := if d = 0 then 0 else (n : ℚ) / (d : ℚ)

end Sys2Proof.Machine
end

