-- ==== Sys2Proof/Config.lean ====
section
/-! DEFINITION. The parameters of an instance (00_scope.md section 4).
`MAX_CAPACITY` itself is a field of the state, so that one model is every instance (log entry 4).
The latencies `LAT_*` are read by no rule (R10) and have no place here (log entry 11). -/

namespace Sys2Proof.Config

/-- The default of `MAX_CAPACITY`, `2^28 - 1` (R8). -/
def defaultMaxCapacity : Count := 268435455#28

/-- `NWORDS_MAX = ceil(MAX_CAPACITY / 64)`, the number of words of `WORDS` (R8). -/
def nwordsMax (maxCapacity : Count) : Nat := (maxCapacity.toNat + 63) / 64

end Sys2Proof.Config
end

