-- ==== Sys2Proof/Machine/State.lean ====
section
/-! DEFINITION. The state of the block (10_state.md), the host's side of its two ports, and the ways a step can stop.
Plain data only. -/

namespace Sys2Proof.Machine

/-- The bit storage `WORDS` as (word index, word) pairs: indices strictly rising, no entry equal to 0, which is what
an unlisted index reads as. The addressable unit is the 64-bit word and the block has no bytes (R35), so a cell holds
a word (log entries 1 and 2). -/
abbrev Memory := List (Nat × Word)

/-- What the host can do to the block between two steps (R110). -/
inductive HostEvent where
  /-- The host issues one command word, any of the `2^32` (R50, R105). -/
  | command (w : CommandWord)
  /-- The host applies `rst` (R102). `leftover` is what the words hold afterwards, which the spec leaves unspecified and
  possibly different at each reset (R27): the event carries it, so every content is allowed (log entry 3). -/
  | reset (leftover : List (Nat × Word))
  deriving DecidableEq, Repr

/-- The state of the block (R14, R25) and, in the last three fields, the model's own: the instance's parameter and the
host's side of the ports. -/
structure State where
  /-- `CONFIGURED`: a counter exists (R16). -/
  configured : Bool
  /-- `CAPACITY` (R17). -/
  capacity : Count
  /-- `NWORDS`: how many words the counter uses (R18). -/
  nwords : WordCount
  /-- `CURSOR`: the next bit position to write (R19). -/
  cursor : Count
  /-- `OBSERVED`: observations so far, saturating at `CAPACITY` (R20). -/
  observed : Count
  /-- `VALID`: the memo is Fresh (R21). -/
  valid : Bool
  /-- `CNUM`: the memo's numerator (R22). -/
  cnum : Count
  /-- `CDEN`: the memo's denominator (R22). -/
  cden : Count
  /-- `WORDS`: the bit storage (R23). -/
  words : Memory
  /-- The parameter `MAX_CAPACITY` of this instance (R8); no step writes it (log entry 4). -/
  maxCapacity : Count
  /-- The host's events still to come, next first (R105, R107; log entry 5). -/
  inputs : List HostEvent
  /-- The response words sent so far, oldest first (R55, R105; log entry 6). -/
  responses : List ResponseWord
  deriving DecidableEq, Repr

/-- The machine right after hardware reset: the reset column of R27, the default instance (R8), no event pending and
nothing sent. No word is listed, so every word reads 0 (R27 allows it; log entry 2). -/
def State.reset : State where
  configured := false
  capacity := 0
  nwords := 0
  cursor := 0
  observed := 0
  valid := false
  cnum := 0
  cden := 0
  words := []
  maxCapacity := Config.defaultMaxCapacity
  inputs := []
  responses := []

/-- Where a step stops. The block itself has no traps: its error conditions are responses (R94). Both faults arise only
in states no run from reset reaches, to which the spec gives no meaning (R86). -/
inductive Fault where
  /-- Raised by REC and by a FRAC that misses when a read would leave the domain of `MemRead`, `0 <= i < NWORDS` within
  `WORDS` (R12, R23); `i` is the word index. Safe: the model stops where the spec says nothing (log entry 9). -/
  | noSuchWord (i : Nat)
  /-- Raised by REC and by a FRAC that misses when the number to be written does not fit its 28-bit register, which R86
  excludes for reachable states; `n` is the number. Safe: the model stops where the spec says nothing (log entry 10). -/
  | registerOverflow (n : Nat)
  deriving DecidableEq, Repr

/-- Why a step has no meaning. -/
inductive Refusal where
  /-- Raised by an arm of `exec` whose instruction has no meaning yet. Safe. No arm raises it now. -/
  | notModelled (mnemonic : String)
  deriving DecidableEq, Repr

end Sys2Proof.Machine
end

