-- ==== Sys2Proof/Machine/Ops.lean ====
section
/-! DEFINITION. The named operations over the word array, the registers and the response port: every meaning is
written over these. Ending a command with an error status is `State.raise` (R94); there is nothing to return from, since
nothing was entered (R95). -/

namespace Sys2Proof.Machine

/-! ### The word array -/

/-- What an index that is not listed reads as (log entry 2). -/
def Memory.unlisted : Word := 0

/-- The word at index `i`. -/
def Memory.read : Memory → Nat → Word
  | [], _ => Memory.unlisted
  | (j, w) :: m, i => if j = i then w else Memory.read m i

/-- The array with the word at index `i` replaced by `v`, in canonical form. -/
def Memory.write : Memory → Nat → Word → Memory
  | [], i, v => if v = Memory.unlisted then [] else [(i, v)]
  | (j, w) :: m, i, v =>
    if i < j then (if v = Memory.unlisted then (j, w) :: m else (i, v) :: (j, w) :: m)
    else if i = j then (if v = Memory.unlisted then m else (i, v) :: m)
    else (j, w) :: Memory.write m i v

/-- The array with words `0 .. n-1` zero and the others as they were: the loop of NEW (R64). -/
def Memory.clearBelow (n : Nat) (m : Memory) : Memory := m.filter fun c => decide (n ≤ c.1)

/-- The array of `size` words that holds the given cells, a later cell over an earlier one; cells outside are dropped. -/
def Memory.ofCells (size : Nat) (cells : List (Nat × Word)) : Memory :=
  cells.foldl (fun m c => if c.1 < size then Memory.write m c.1 c.2 else m) []

/-- The canonical form above index bound `lo`: indices strictly rising from `lo`, no entry equal to what an unlisted
index reads as. -/
def Memory.wfFrom : Nat → Memory → Bool
  | _, [] => true
  | lo, (i, w) :: m => decide (lo ≤ i) && (w != Memory.unlisted) && Memory.wfFrom (i + 1) m

/-- The canonical form of the word array. -/
def Memory.wf (m : Memory) : Bool := Memory.wfFrom 0 m

/-- Every listed index is below `n`. -/
def Memory.inside (n : Nat) (m : Memory) : Bool := m.all fun c => decide (c.1 < n)

/-! ### Reads and writes a command makes -/

/-- `MemRead(i, 64)`: its domain is `0 <= i < NWORDS`, inside the `NWORDS_MAX` words there are (R12, R23, R35). -/
def memRead (s : State) (i : Nat) : Except Fault Word :=
  if i < s.nwords.toNat ∧ i < Config.nwordsMax s.maxCapacity then .ok (s.words.read i)
  else .error (.noSuchWord i)

/-- `MemWrite(i, 64, v)` (R12). -/
def memWrite (s : State) (i : Nat) (v : Word) : State := { s with words := s.words.write i v }

/-- The value of a 28-bit register write; no write in the block truncates (R11, R86). -/
def toCount (n : Nat) : Except Fault Count :=
  if n < 2 ^ 28 then .ok (BitVec.ofNat 28 n) else .error (.registerOverflow n)

/-! ### Ending a command -/

/-- `respond(status, num, den)`: send the response word and end the command (R12, R55). -/
def State.respond (s : State) (st : Status) (num den : Count) : State :=
  { s with responses := s.responses ++ [responseWord st num den] }

/-- `raise <Status>`: end the command with an error status, writing no state (R12, R94). -/
def State.raise (s : State) (st : Status) : State := s.respond st 0 0

/-- The answer to a word that spells no command (R58, R92). -/
def State.illegalCommand (s : State) : State := s.raise .illegalCommand

/-! ### Hardware reset and the host's events -/

/-- The reset column of R27; `leftover` is what the words, which reset does not clear, hold afterwards (R102; log entry
3). The instance and the host's side stay. -/
def State.hardwareReset (s : State) (leftover : List (Nat × Word)) : State :=
  { s with
    configured := false
    capacity := 0
    nwords := 0
    cursor := 0
    observed := 0
    valid := false
    cnum := 0
    cden := 0
    words := Memory.ofCells (Config.nwordsMax s.maxCapacity) leftover }

/-- The state with the host's remaining events replaced. -/
def State.withInputs (s : State) (es : List HostEvent) : State := { s with inputs := es }

/-- The host issues one more command word, before the events already pending (R105). -/
def State.offer (s : State) (w : CommandWord) : State := s.withInputs (.command w :: s.inputs)

end Sys2Proof.Machine
end

