-- ==== Sys2Proof/Machine/Operands.lean ====
section
/-! DEFINITION. From an operand to what the hardware uses of it: a capacity to a number of words (R18, R64), a bit
position to a word index, a bit number and a mask (20_memory.md section 2), and the step of the cursor (R67). -/

namespace Sys2Proof.Machine

/-- `ceil(cap / 64)` as `(cap + 63) >> 6`; the sum has 29 bits (R18, R64, R85). -/
def nwordsOf (cap : Count) : WordCount := BitVec.ofNat 23 ((cap.toNat + 63) >>> 6)

/-- `widx(p) = p[27:6]`, the word index of a position (R37, R39). -/
def widx (p : Count) : Nat := (p.extractLsb' 6 22).toNat

/-- `boff(p)`, the complement of `p[5:0]` on 6 bits: the bit number within the word (R37, R39). -/
def boff (p : Count) : Nat := (~~~(p.extractLsb' 0 6)).toNat

/-- `mask(p) = 1 << boff(p)` (R39). -/
def mask (p : Count) : Word := 1#64 <<< boff p

/-- The word `old` with the slot at position `p` set to `v` (R40). -/
def setSlot (old : Word) (p : Count) (v : Bool) : Word :=
  if v then old ||| mask p else old &&& ~~~(mask p)

/-- The cursor after the position `p`: compare and wrap (R67, R85). -/
def nextCursor (capacity p : Count) : Except Fault Count :=
  if p.toNat + 1 = capacity.toNat then .ok 0 else toCount (p.toNat + 1)

/-- The observation count after one more observation: saturating at the capacity (R67, R85). -/
def nextObserved (capacity observed : Count) : Count :=
  if observed.toNat < capacity.toNat then observed + 1 else observed

end Sys2Proof.Machine
end

