-- ==== Sys2Proof/Machine/Flags.lean ====
section
/-! DEFINITION. The one flag a command reads, `VALID`, with the memo pair it guards (R21, R22, R75). The block has no
condition codes, and no command writes a flag but `VALID` as a side effect (R21). -/

namespace Sys2Proof.Machine

/-- The memo turns Stale; the pair stays as it is (R67, R75). -/
def State.makeStale (s : State) : State := { s with valid := false }

/-- The memo turns Stale and the pair is cleared (R64, R75). -/
def State.clearMemo (s : State) : State := { s with valid := false, cnum := 0, cden := 0 }

/-- The memo turns Fresh with the pair `(num, den)` (R71, R75). -/
def State.fillMemo (s : State) (num den : Count) : State :=
  { s with valid := true, cnum := num, cden := den }

end Sys2Proof.Machine
end

