-- ==== Sys2Proof/Machine/Construction.lean ====
section
/-! DEFINITION. NEW, construction of the counter (40_new.md). -/

namespace Sys2Proof.Machine

/-- The fresh counter of a NEW that succeeds: words `0 .. n-1` zeroed, registers as R27's second column. Words at `n`
and above stay as they were (R64). -/
def State.create (s : State) (cap : Count) : State :=
  { s.clearMemo with
    words := Memory.clearBelow (nwordsOf cap).toNat s.words
    capacity := cap
    nwords := nwordsOf cap
    cursor := 0
    observed := 0
    configured := true }

/-- NEW cap (R64, R65). -/
def execNew (cap : Count) (s : State) : Host.Outcome State Fault Refusal :=
  if cap.toNat = 0 then .next (s.raise .invalidCapacity)
  else if s.maxCapacity.toNat < cap.toNat then .next (s.raise .capacityTooLarge)
  else .next ((s.create cap).respond .ok 0 0)

end Sys2Proof.Machine
end

