-- ==== Sys2Proof/Machine/Popcount.lean ====
section
/-! DEFINITION. The popcount reducer: `PC1`, `PC4` and `REDUCE` with the dataflow the spec writes (43_popcount.md), and
the mathematical population count they are to equal (R11, R82). Pure functions; none has an opcode. -/

namespace Sys2Proof.Machine

/-! ### The mask constants (R76) -/

def m1 : Word := 0x5555555555555555#64
def m2 : Word := 0x3333333333333333#64
def m4 : Word := 0x0F0F0F0F0F0F0F0F#64
def m8 : Word := 0x00FF00FF00FF00FF#64
def f7 : Word := 0x000000000000007F#64
def f9 : Word := 0x00000000000001FF#64

/-! ### The stages shared by both counters -/

/-- Stage `a`: 32 fields of 2 bits, bit pairs into 2-bit sums (R77, R79). -/
def pairSums (w : Word) : Word := w - ((w >>> 1) &&& m1)

/-- Stage `b`: 16 fields of 4 bits, 2-bit sums into 4-bit sums (R77, R79). -/
def nibbleSums (a : Word) : Word := (a &&& m2) + ((a >>> 2) &&& m2)

/-! ### PC1, one word (R77) -/

/-- Stage `c`: 8 fields of 8 bits, 4-bit sums into byte sums. -/
def byteSums (b : Word) : Word := (b + (b >>> 4)) &&& m4

/-- Stages `d`, `e`, `f`: the bytes summed by shifted additions; byte 0 holds the count. -/
def foldBytes (c : Word) : Word :=
  let d := c + (c >>> 8)
  let e := d + (d >>> 16)
  e + (e >>> 32)

/-- `PC1(w)`: the number of set bits of one word (R77). -/
def pc1 (w : Word) : Nat := (foldBytes (byteSums (nibbleSums (pairSums w))) &&& f7).toNat

/-! ### PC4, four words (R79) -/

/-- Stages `p8` and `q8`: the nibble counts of two words widened to bytes. -/
def widenNibbles (p : Word) : Word := (p &&& m4) + ((p >>> 4) &&& m4)

/-- Stage `h`: byte counts widened to 16-bit fields. -/
def widenBytes (t : Word) : Word := (t &&& m8) + ((t >>> 8) &&& m8)

/-- Stages `h2`, `h3`: the 16-bit fields summed; field 0 holds the count. -/
def foldHalves (h : Word) : Word :=
  let h2 := h + (h >>> 16)
  h2 + (h2 >>> 32)

/-- Stages `p` and `q`: nibble counts merged across a pair of words, never across four (R80). -/
def mergePair (w w' : Word) : Word := nibbleSums (pairSums w) + nibbleSums (pairSums w')

/-- Stage `t`: byte counts of all four words merged. -/
def mergeGroup (p q : Word) : Word := widenNibbles p + widenNibbles q

/-- `PC4(w0, w1, w2, w3)`: the number of set bits of four words together (R79). -/
def pc4 (w0 w1 w2 w3 : Word) : Nat :=
  (foldHalves (widenBytes (mergeGroup (mergePair w0 w1) (mergePair w2 w3))) &&& f9).toNat

/-! ### REDUCE, the whole array (R81) -/

/-- The grouped path: `PC4` of groups `0 .. g-1`, in ascending order. -/
def reduceGroups (m : Memory) : Nat → Nat
  | 0 => 0
  | j + 1 =>
    reduceGroups m j + pc4 (m.read (4 * j)) (m.read (4 * j + 1)) (m.read (4 * j + 2)) (m.read (4 * j + 3))

/-- The scalar tail: `PC1` of `k` words from index `start`, in ascending order. -/
def reduceTail (m : Memory) (start : Nat) : Nat → Nat
  | 0 => 0
  | k + 1 => reduceTail m start k + pc1 (m.read (start + k))

/-- `REDUCE(WORDS, n)`: whole groups of four words first, then the `n mod 4` words left (R81). -/
def reduce (m : Memory) (n : Nat) : Nat :=
  let g := n >>> 2
  reduceGroups m g + reduceTail m (4 * g) (n - 4 * g)

/-- `REDUCE(WORDS, NWORDS)` as FRAC runs it. Every word it reads must exist (R12, R23); the accumulator is a natural
number (R11), narrowed where it is written (R86). -/
def reduceWords (s : State) : Except Fault Nat :=
  if s.nwords.toNat ≤ Config.nwordsMax s.maxCapacity then .ok (reduce s.words s.nwords.toNat)
  else .error (.noSuchWord (Config.nwordsMax s.maxCapacity))

/-! ### The mathematical count -/

/-- `popcount(v)`: the number of 1 bits of `v`, counted bit by bit (R11). -/
def popcount (v : Word) : Nat := (List.range 64).countP fun k => v.getLsbD k

/-- `TOTAL` over `n` words: `popcount(WORDS[0]) + ... + popcount(WORDS[n-1])` (10_state.md section 5, R82). -/
def total (m : Memory) : Nat → Nat
  | 0 => 0
  | n + 1 => total m n + popcount (m.read n)

end Sys2Proof.Machine
end

