-- ==== Sys2Proof/Machine/Query.lean ====
section
/-! DEFINITION. FRAC, the query, and its two paths through the memo (42_fraction.md). -/

namespace Sys2Proof.Machine

/-- The response of both paths: the pair, or Uninitialized when nothing has been observed (R71, R72, R73). -/
def State.answer (s : State) (num den : Count) : State :=
  if s.observed.toNat = 0 then s.respond .uninitialized 0 0 else s.respond .ok num den

/-- The hit path: answer from the memo, write nothing (R72). -/
def fracHit (s : State) : Host.Outcome State Fault Refusal := .next (s.answer s.cnum s.cden)

/-- The miss path: reduce, fill the memo, answer (R71, R73). -/
def fracMiss (s : State) : Host.Outcome State Fault Refusal :=
  match reduceWords s with
  | .error f => .fault f
  | .ok acc =>
    match toCount acc with
    | .error f => .fault f
    | .ok sum => .next ((s.fillMemo sum s.observed).answer sum s.observed)

/-- FRAC (R70, R90). -/
def execFrac (s : State) : Host.Outcome State Fault Refusal :=
  if s.configured then (if s.valid then fracHit s else fracMiss s)
  else .next (s.raise .noCounter)

end Sys2Proof.Machine
end

