-- ==== Sys2Proof/Machine/Recording.lean ====
section
/-! DEFINITION. REC, recording one observation (41_record.md). -/

namespace Sys2Proof.Machine

/-- The state after REC writes `word` at index `i` and moves the cursor to `next`: one more observation, saturating, and
a stale memo (R67). -/
def State.observe (s : State) (i : Nat) (word : Word) (next : Count) : State :=
  { (memWrite s i word).makeStale with
    cursor := next
    observed := nextObserved s.capacity s.observed }

/-- REC v (R67, R90). Every right-hand side reads the state before the command. -/
def execRecord (v : Bool) (s : State) : Host.Outcome State Fault Refusal :=
  if s.configured then
    match memRead s (widx s.cursor), nextCursor s.capacity s.cursor with
    | .ok old, .ok next =>
      .next ((s.observe (widx s.cursor) (setSlot old s.cursor v) next).respond .ok 0 0)
    | .error f, _ => .fault f
    | .ok _, .error f => .fault f
  else .next (s.raise .noCounter)

end Sys2Proof.Machine
end

