-- ==== Sys2Proof/Machine/Dispatch.lean ====
section
/-! DEFINITION. One arm per command (R51). -/

namespace Sys2Proof.Machine

def exec (i : Instr) (s : State) : Host.Outcome State Fault Refusal :=
  match i with
  | .new cap => Sys2Proof.Machine.execNew cap s
  | .record v => Sys2Proof.Machine.execRecord v s
  | .frac => Sys2Proof.Machine.execFrac s

end Sys2Proof.Machine
end

