-- ==== Sys2Proof/Machine/Run.lean ====
section
/-! DEFINITION. Taking one host event: a command word is decoded and run to completion (R13, R105), a reset gives the
reset state (R102, R103), and with no event the state does not change (R107, R110). -/

namespace Sys2Proof.Machine

/-- One command word: decoded from the word alone, then run; an illegal word is answered and changes no state (R50,
R58, R93). -/
def runCommand (w : CommandWord) (s : State) : Host.Outcome State Fault Refusal :=
  match decode w with
  | .ok i => exec i s
  | .error _ => .next s.illegalCommand

/-- One event of the host. -/
def runEvent (e : HostEvent) (s : State) : Host.Outcome State Fault Refusal :=
  match e with
  | .command w => runCommand w s
  | .reset leftover => .next (s.hardwareReset leftover)

/-- The next event of the host, if there is one (R105, R110). -/
def runNext (s : State) : Host.Outcome State Fault Refusal :=
  match s.inputs with
  | [] => .next s
  | e :: rest => runEvent e (s.withInputs rest)

end Sys2Proof.Machine
end

