-- ==== Sys2Proof/Machine/Step.lean ====
section
/-! DEFINITION. One step of the machine: the next event of the host, whole (R13). -/

namespace Sys2Proof.Machine

/-- One atomic transition (R13, R44). -/
def step (s : State) : Host.Outcome State Fault Refusal := runNext s

/-- The state in which the host offers the row's word next. A command comes from the port, not from memory (R15, R48):
offering it is the whole of "placing" an instruction (log entry 5). -/
def State.withFetchWord (s : State) (nbits w : Nat) : State := s.offer (tableWord nbits w)

end Sys2Proof.Machine
end

