-- ==== Sys2Proof/Machine/Port.lean ====
section
/-! DEFINITION. The clock-level view of the block: its pins (R104), the handshake (R105) and synchronous reset (R102,
R103) around the command-level machine. One rising edge of `clk` is one `clockEdge`. How long a command takes is open
(R10, R112): the environment supplies the number of cycles with each edge, so every latency is allowed (log entry 11).
`step` (Machine/Step.lean) is what all of this collapses into (R105). -/

namespace Sys2Proof.Machine

/-- What the pins and the environment give at one rising edge: the input pins of R104, what the words hold if this edge
resets (R27; log entry 3), the edges between the acceptance of a command and its completion, should one be accepted, and
the cycles `cmd_ready` stays low after that command's response, or after this edge if it resets (R10, R105). -/
structure PortIn where
  rst : Bool
  cmdValid : Bool
  cmdWord : CommandWord
  leftover : List (Nat × Word)
  latency : Nat
  pause : Nat
  deriving DecidableEq, Repr

/-- Where the handshake stands between two edges (R105). -/
inductive Phase where
  /-- `cmd_ready = 1`. -/
  | ready
  /-- A command is in the block; `wait` edges pass before the one at which it completes; `pause` is for after its
  response. -/
  | busy (w : CommandWord) (wait pause : Nat)
  /-- `rsp_valid = 1`, for this one cycle. -/
  | responding (pause : Nat)
  /-- After a response or a reset, before `cmd_ready` returns. -/
  | recovering (wait : Nat)
  deriving DecidableEq, Repr

/-- The block between two edges. -/
structure Clocked where
  state : State
  phase : Phase
  deriving DecidableEq, Repr

/-- The pin `cmd_ready` (R104, R105). -/
def Clocked.cmdReady (c : Clocked) : Bool :=
  match c.phase with
  | .ready => true
  | .busy _ _ _ => false
  | .responding _ => false
  | .recovering _ => false

/-- The pins `rsp_valid` and `rsp_word`: a word exactly while `rsp_valid = 1`, since `rsp_word` is meaningful only then
(R104; log entry 15). -/
def Clocked.rsp (c : Clocked) : Option ResponseWord :=
  match c.phase with
  | .responding _ => c.state.responses.getLast?
  | .ready => none
  | .busy _ _ _ => none
  | .recovering _ => none

/-- The handshake with `n` edges to go before `cmd_ready` returns (R105). -/
def Phase.waiting : Nat → Phase
  | 0 => .ready
  | n + 1 => .recovering n

/-- A command in the block, `wait` edges before the one at which it completes: all its writes land together at the edge
that raises `rsp_valid` (R12, R105). -/
def proceed (w : CommandWord) (wait pause : Nat) (s : State) : Host.Outcome Clocked Fault Refusal :=
  match wait with
  | n + 1 => .next { state := s, phase := .busy w n pause }
  | 0 =>
    match runCommand w s with
    | .next t => .next { state := t, phase := .responding pause }
    | .fault f => .fault f
    | .refused r => .refused r

/-- One rising edge of `clk`. `rst` wins over everything and abandons a command in progress without a response (R102,
R103); else a command is accepted when offered and ready (R105; log entry 15). -/
def clockEdge (c : Clocked) (i : PortIn) : Host.Outcome Clocked Fault Refusal :=
  if i.rst then .next { state := c.state.hardwareReset i.leftover, phase := Phase.waiting i.pause }
  else
    match c.phase with
    | .ready => if i.cmdValid then proceed i.cmdWord i.latency i.pause c.state else .next c
    | .busy w wait pause => proceed w wait pause c.state
    | .responding pause => .next { c with phase := Phase.waiting pause }
    | .recovering n => .next { c with phase := Phase.waiting n }

/-- A run of edges, stopping at the first fault. -/
def clockEdges (c : Clocked) : List PortIn → Host.Outcome Clocked Fault Refusal
  | [] => .next c
  | i :: is =>
    match clockEdge c i with
    | .next c' => clockEdges c' is
    | .fault f => .fault f
    | .refused r => .refused r

end Sys2Proof.Machine
end

