-- ==== Sys2Proof/Machine/Trace.lean ====
section
/-! DEFINITION. The written form of commands and responses (30_encoding.md section 5, R62, R63): a reader of trace text,
the expansion of its lines into command words, and the written form of a response. Text is a list of characters, so
that the kernel can evaluate the reader. The lexical details R62 leaves open are log entry 16. -/

namespace Sys2Proof.Machine

/-- One line of a trace (R62, R63). The source's spellings `new(cap)`, `record(on)`, `record(off)`, `fraction()` are read
as the line they are synonyms of. -/
inductive TraceLine where
  | newCap (cap : Nat)
  | recBit (v : Bool)
  | fraction
  | word (w : Nat)
  | on
  | off
  | recTimes (v : Bool) (n : Nat)
  | recs (bits : List Bool)
  deriving DecidableEq, Repr

/-- The ranges R62 gives: `cap` in `0 .. 268435455`, `WORD` a 32-bit literal. -/
def TraceLine.wf : TraceLine → Bool
  | .newCap cap => decide (cap ≤ 268435455)
  | .word w => decide (w < 2 ^ 32)
  | .recBit _ => true
  | .fraction => true
  | .on => true
  | .off => true
  | .recTimes _ _ => true
  | .recs _ => true

/-- `0x20000000 | v` (R62). -/
def recWord (v : Bool) : CommandWord := if v then 0x20000001#32 else 0x20000000#32

/-- The command words a line stands for (R62, R63); none for a literal out of range. -/
def TraceLine.expand (l : TraceLine) : Option (List CommandWord) :=
  if l.wf then
    match l with
    | .newCap cap => some [0x10000000#32 ||| BitVec.ofNat 32 cap]
    | .recBit v => some [recWord v]
    | .fraction => some [0x30000000#32]
    | .word w => some [BitVec.ofNat 32 w]
    | .on => some [recWord true]
    | .off => some [recWord false]
    | .recTimes v n => some (List.replicate n (recWord v))
    | .recs bits => some (bits.map recWord)
  else none

/-! ### Reading the text -/

/-- A comment starts with `--` and runs to the end of the line (R62). -/
def stripComment : List Char → List Char
  | [] => []
  | c :: cs =>
    match c, cs with
    | '-', '-' :: _ => []
    | _, _ => c :: stripComment cs

/-- Blanks between the words of a line. -/
def isBlank (c : Char) : Bool := c == ' ' || c == '\t' || c == '\r'

/-- The words of a line; `cur` is the word being read, last character first. -/
def wordsFrom (cur : List Char) : List Char → List (List Char)
  | [] => if cur.isEmpty then [] else [cur.reverse]
  | c :: cs =>
    if isBlank c then (if cur.isEmpty then wordsFrom [] cs else cur.reverse :: wordsFrom [] cs)
    else wordsFrom (c :: cur) cs

/-- The value of a digit in a base up to 16. -/
def digit (base : Nat) (c : Char) : Option Nat :=
  let d :=
    if '0'.toNat ≤ c.toNat ∧ c.toNat ≤ '9'.toNat then c.toNat - '0'.toNat
    else if 'a'.toNat ≤ c.toNat ∧ c.toNat ≤ 'f'.toNat then c.toNat - 'a'.toNat + 10
    else if 'A'.toNat ≤ c.toNat ∧ c.toNat ≤ 'F'.toNat then c.toNat - 'A'.toNat + 10
    else 16
  if d < base then some d else none

/-- The number a list of digits spells, after the digits that spell `acc`. -/
def digitsFrom (base acc : Nat) : List Char → Option Nat
  | [] => some acc
  | c :: cs =>
    match digit base c with
    | some d => digitsFrom base (base * acc + d) cs
    | none => none

/-- The digits of a literal. An underscore inside it is a reading aid (R11). R11 and R62 say neither whether a literal
needs a digit nor where an underscore may stand; the model refuses a literal with no digit and lets underscores stand
anywhere among the digits (DESIGN CHOICE, log entry 16). -/
def digits (base : Nat) (cs : List Char) : Option Nat :=
  match cs.filter fun c => c != '_' with
  | [] => none
  | d :: ds => digitsFrom base 0 (d :: ds)

/-- A decimal or `0x` literal (R11, R62). -/
def literal : List Char → Option Nat
  | '0' :: 'x' :: ds => digits 16 ds
  | cs => digits 10 cs

/-- `v` in `0` and `1` (R62). -/
def bitLiteral (cs : List Char) : Option Bool :=
  if cs = ['0'] then some false else if cs = ['1'] then some true else none

/-- All of the bits, or none. -/
def bitLiterals : List (List Char) → Option (List Bool)
  | [] => some []
  | t :: ts =>
    match bitLiteral t, bitLiterals ts with
    | some b, some bs => some (b :: bs)
    | _, _ => none

/-- A line of one word: `FRAC`, `ON`, `OFF` and the source's spellings (R62, R63). R63 writes `RECS <b1 b2 ... bn>`
and does not say whether `n` may be 0; the model reads a bare `RECS` as no command (DESIGN CHOICE, log entry 16). -/
def soleWord (t : List Char) : Option TraceLine :=
  if t = "FRAC".toList ∨ t = "fraction()".toList then some .fraction
  else if t = "ON".toList then some .on
  else if t = "OFF".toList then some .off
  else if t = "record(on)".toList then some (.recBit true)
  else if t = "record(off)".toList then some (.recBit false)
  else if t = "RECS".toList then some (.recs [])
  else if t.take 4 = "new(".toList ∧ t.getLast? = some ')' then
    (literal (t.drop 4).dropLast).map .newCap
  else none

/-- A line from its words (R62, R63). -/
def lineOf : List (List Char) → Option TraceLine
  | [] => none
  | [t] => soleWord t
  | t :: u :: rest =>
    if t = "RECS".toList then (bitLiterals (u :: rest)).map .recs
    else if t = "NEW".toList ∧ rest = [] then (literal u).map .newCap
    else if t = "WORD".toList ∧ rest = [] then (literal u).map .word
    else if t = "REC".toList then
      match bitLiteral u, rest with
      | some v, [] => some (.recBit v)
      | some v, [x, n] => if x = ['x'] then (literal n).map (.recTimes v) else none
      | _, _ => none
    else none

/-- The command words of one line of text; a line with nothing but a comment stands for none of them. -/
def assembleLine (cs : List Char) : Option (List CommandWord) :=
  match wordsFrom [] (stripComment cs) with
  | [] => some []
  | t :: ts =>
    match lineOf (t :: ts) with
    | some l => l.expand
    | none => none

/-- The command words of a trace, one list of characters a line (R62). -/
def assemble : List (List Char) → Option (List CommandWord)
  | [] => some []
  | l :: ls =>
    match assembleLine l, assemble ls with
    | some ws, some rest => some (ws ++ rest)
    | _, _ => none

/-- The host issues these command words, in order, before the events already pending (R105). -/
def State.offerAll (s : State) (ws : List CommandWord) : State :=
  s.withInputs (ws.map .command ++ s.inputs)

/-! ### The written form of a response -/

/-- The name of a status (R56). -/
def Status.name : Status → String
  | .ok => "OK"
  | .invalidCapacity => "InvalidCapacity"
  | .uninitialized => "Uninitialized"
  | .noCounter => "NoCounter"
  | .capacityTooLarge => "CapacityTooLarge"
  | .illegalCommand => "IllegalCommand"

/-- A response as it is written: the status, and the pair unless both numbers are 0 (R62). -/
def renderResponse (r : ResponseWord) : Option String :=
  match Status.ofCode (responseStatus r) with
  | none => none
  | some st =>
    let n := (responseNum r).toNat
    let d := (responseDen r).toNat
    if n = 0 ∧ d = 0 then some ("-> " ++ st.name)
    else some ("-> " ++ st.name ++ " " ++ toString n ++ "/" ++ toString d)

end Sys2Proof.Machine
end

