-- ==== Sys2Proof/Safety.lean ====
section
/-! DEFINITION. The terms claims are stated in: the bit at a position, the invariants of 10_state.md section 5, the
history reading of the state, when two states hold the same counter, the status a command is to get, and the responses
the block can produce. -/

namespace Sys2Proof.Machine

/-- `BIT(p)`: the bit at position `p`, read from the most significant bit of its word down (R37, R41). -/
def bitAt (m : Memory) (p : Nat) : Bool := (m.read (p / 64)).getLsbD (63 - p % 64)

/-- `TOTAL`: the set bits of the counter's words (10_state.md section 5). -/
def State.total (s : State) : Nat := Machine.total s.words s.nwords.toNat

/-- The set bits of `w` among the `len` bits from bit `lo` up: what a lane of a SWAR step is to hold (R83). -/
def bitsIn (w : Word) (lo len : Nat) : Nat := (List.range len).countP fun k => w.getLsbD (lo + k)

/-- Lane `k` of width `len`: bits `len*k + len - 1 : len*k` (R83). -/
def lane (x : Word) (len k : Nat) : Nat := x.toNat / 2 ^ (len * k) % 2 ^ len

/-- The invariants of 10_state.md section 5, with the form of the word array. R32 follows from them and is a statement
of its own. -/
structure Inv (s : State) : Prop where
  /-- The instance's parameter is in its range (R8). -/
  maxCapacity : legalMaxCapacity s.maxCapacity = true
  /-- The word array is in canonical form. -/
  wordsWf : s.words.wf = true
  /-- The word array has `NWORDS_MAX` words (R23). -/
  wordsInside : s.words.inside (Config.nwordsMax s.maxCapacity) = true
  /-- With no counter every register has its reset value (R28). -/
  unconfigured : s.configured = false →
    s.capacity = 0 ∧ s.nwords = 0 ∧ s.cursor = 0 ∧ s.observed = 0 ∧ s.valid = false ∧ s.cnum = 0 ∧ s.cden = 0
  /-- The range of the capacity (R28). -/
  capacity : s.configured = true → 1 ≤ s.capacity.toNat ∧ s.capacity.toNat ≤ s.maxCapacity.toNat
  /-- `NWORDS = ceil(CAPACITY / 64)` (R28). -/
  nwords : s.configured = true → s.nwords.toNat = (s.capacity.toNat + 63) / 64
  /-- The ranges of cursor and count (R29). -/
  ranges : s.configured = true → s.cursor.toNat < s.capacity.toNat ∧ s.observed.toNat ≤ s.capacity.toNat
  /-- The shape of the ramp-up (R30). -/
  rampUp : s.configured = true → s.observed.toNat < s.capacity.toNat →
    s.cursor = s.observed ∧
      ∀ p, p < s.capacity.toNat → s.observed.toNat ≤ p → bitAt s.words p = false
  /-- Padding bits are zero (R31). -/
  padding : s.configured = true →
    ∀ p, p < 64 * s.nwords.toNat → s.capacity.toNat ≤ p → bitAt s.words p = false
  /-- The memo is coherent (R33). -/
  memo : s.configured = true → s.valid = true → s.cnum.toNat = s.total ∧ s.cden = s.observed

/-- The history reading of the state (R34): `h` holds the values of the REC commands that completed since the counter
was created, oldest first. -/
structure Reflects (h : List Bool) (s : State) : Prop where
  observed : s.observed.toNat = min h.length s.capacity.toNat
  cursor : s.cursor.toNat = h.length % s.capacity.toNat
  /-- A slot some observation was written to holds the last of them. -/
  written : ∀ j, (hj : j < h.length) →
    (∀ j', j' < h.length → j < j' → j' % s.capacity.toNat ≠ j % s.capacity.toNat) →
    bitAt s.words (j % s.capacity.toNat) = h[j]
  /-- A slot never written to holds 0. -/
  unwritten : ∀ p, p < s.capacity.toNat →
    (∀ j, j < h.length → j % s.capacity.toNat ≠ p) → bitAt s.words p = false

/-- The retained observations of a history: the last `min(k, C)` of them (R34, R68). -/
def window (capacity : Nat) (h : List Bool) : List Bool := h.drop (h.length - min h.length capacity)

/-- An event of the host but for what a reset leaves in the words, which the spec does not say (R27). -/
def HostEvent.shape : HostEvent → HostEvent
  | .command w => .command w
  | .reset _ => .reset []

/-- The two states differ at most in words outside the counter, which no rule reads: all of them with no counter, those
at index `NWORDS` and above with one (R16, R23), and in what later resets will leave there. -/
structure SameCounter (s t : State) : Prop where
  configured : s.configured = t.configured
  capacity : s.capacity = t.capacity
  nwords : s.nwords = t.nwords
  cursor : s.cursor = t.cursor
  observed : s.observed = t.observed
  valid : s.valid = t.valid
  cnum : s.cnum = t.cnum
  cden : s.cden = t.cden
  words : s.configured = true → ∀ i, i < s.nwords.toNat → s.words.read i = t.words.read i
  maxCapacity : s.maxCapacity = t.maxCapacity
  inputs : s.inputs.map HostEvent.shape = t.inputs.map HostEvent.shape
  responses : s.responses = t.responses

/-- The status of a command word in a state: the decision function of R93, read off the word's numbers. -/
def expectedStatus (w : CommandWord) (s : State) : Status :=
  let op := w.toNat / 2 ^ 28
  let arg := w.toNat % 2 ^ 28
  if op = 1 then
    if arg = 0 then .invalidCapacity
    else if arg > s.maxCapacity.toNat then .capacityTooLarge
    else .ok
  else if op = 2 ∧ arg / 2 = 0 then
    if s.configured = false then .noCounter else .ok
  else if op = 3 ∧ arg = 0 then
    if s.configured = false then .noCounter
    else if s.observed = 0#28 then .uninitialized
    else .ok
  else .illegalCommand

/-- The response word of status OK with a pair: `0x00`, then `NUM`, then `DEN` (R55, R57, R87). -/
def pairWord (num den : Count) : ResponseWord := 0x00#8 ++ (num ++ den)

/-- The complete list of response words an instance can produce (R57). -/
def LegalResponse (maxCapacity : Count) (r : ResponseWord) : Prop :=
  r = 0x0000000000000000#64 ∨
  (∃ n d : Count, n.toNat ≤ d.toNat ∧ 1 ≤ d.toNat ∧ d.toNat ≤ maxCapacity.toNat ∧ r = pairWord n d) ∨
  r = 0x1000000000000000#64 ∨ r = 0x2000000000000000#64 ∨ r = 0x3000000000000000#64 ∨
  r = 0x4000000000000000#64 ∨ r = 0x5000000000000000#64

/-- Some response so far had a status other than OK: the fault bit R97 allows a model to keep outside the block. -/
def State.nonOkSeen (s : State) : Bool := s.responses.any fun r => responseStatus r != 0

/-- Some response so far had a status other than OK and Uninitialized (R97). -/
def State.failureSeen (s : State) : Bool :=
  s.responses.any fun r => responseStatus r != 0 && responseStatus r != 2

end Sys2Proof.Machine
end

