-- ==== Sys2Proof/Certificates/Slice0/Obligations.lean ====
section
/-! DEFINITION. The statements for the provers. Each docstring cites the rule of spec/ its statement comes from, and names
the log entry where a clause rests on a choice of the model. -/

open Sys2Proof Sys2Proof.Machine

/-! ## Encoding (30_encoding.md) -/

/-- R50 to R54, R61: the decoder and the encoder agree on every word and every operand. -/
def Obligations.DecodeInvertsEncode : Prop :=
  ∀ (w : CommandWord) (i : Instr), decode w = .ok i ↔ encode i = w

/-- R52: the words of NEW are exactly those that match `0x10000000` under `0xF0000000`, and every `cap` decodes. -/
def Obligations.NewWordsDecode : Prop :=
  (∀ w : CommandWord, w &&& 0xF0000000#32 = 0x10000000#32 ↔ ∃ cap, decode w = .ok (.new cap)) ∧
  ∀ cap : Count, decode (0x10000000#32 ||| cap.setWidth 32) = .ok (.new cap)

/-- R53: the two words of REC, and every other word with `op = 0x2` is illegal. -/
def Obligations.RecWordsDecode : Prop :=
  (∀ w : CommandWord, w &&& 0xFFFFFFFE#32 = 0x20000000#32 ↔ ∃ v, decode w = .ok (.record v)) ∧
  decode 0x20000000#32 = .ok (.record false) ∧ decode 0x20000001#32 = .ok (.record true) ∧
  ∀ w : CommandWord, w.extractLsb 31 28 = 0x2#4 → w.extractLsb 27 1 ≠ 0#27 → decode w = .error .recArg

/-- R54: the one word of FRAC, and every other word with `op = 0x3` is illegal. -/
def Obligations.FracWordDecodes : Prop :=
  (∀ w : CommandWord, w &&& 0xFFFFFFFF#32 = 0x30000000#32 ↔ decode w = .ok .frac) ∧
  ∀ w : CommandWord, w.extractLsb 31 28 = 0x3#4 → w.extractLsb 27 0 ≠ 0#28 → decode w = .error .fracArg

/-- Words written out from R52, R53, R54 and R58. -/
def Obligations.SampleWordsDecode : Prop :=
  decode 0x10000004#32 = .ok (.new 4) ∧ decode 0x1FFFFFFF#32 = .ok (.new 268435455) ∧
  decode 0x20000001#32 = .ok (.record true) ∧ decode 0x30000000#32 = .ok .frac ∧
  decode 0x20000002#32 = .error .recArg ∧ decode 0x30000001#32 = .error .fracArg ∧
  decode 0x00000000#32 = .error .opcode ∧ decode 0xFFFFFFFF#32 = .error .opcode

/-- R58: which words are illegal, and what the block answers. The all-zero and the all-ones word are among them. -/
def Obligations.IllegalWordsAnswered : Prop :=
  let illegal := fun w : CommandWord =>
    w.extractLsb 31 28 = 0x0#4 ∨ 4 ≤ (w.extractLsb 31 28).toNat ∨
    (w.extractLsb 31 28 = 0x2#4 ∧ w.extractLsb 27 1 ≠ 0#27) ∨
    (w.extractLsb 31 28 = 0x3#4 ∧ w.extractLsb 27 0 ≠ 0#28)
  (∀ (s : State) (w : CommandWord) (rest : List HostEvent), s.inputs = .command w :: rest → illegal w →
    step s = .next { s with inputs := rest, responses := s.responses ++ [0x5000000000000000#64] }) ∧
  (∀ w : CommandWord, ¬ illegal w → ∃ i, decode w = .ok i) ∧
  illegal 0x00000000#32 ∧ illegal 0xFFFFFFFF#32

/-- R62, R63: each line of a trace expands to the words of the commands it stands for. -/
def Obligations.TraceLinesExpand : Prop :=
  (∀ cap : Nat, cap ≤ 268435455 →
    ∃ w, (TraceLine.newCap cap).expand = some [w] ∧ decode w = .ok (.new (BitVec.ofNat 28 cap))) ∧
  (∀ v : Bool, ∃ w, (TraceLine.recBit v).expand = some [w] ∧ decode w = .ok (.record v)) ∧
  (∃ w, TraceLine.fraction.expand = some [w] ∧ decode w = .ok .frac) ∧
  TraceLine.on.expand = (TraceLine.recBit true).expand ∧
  TraceLine.off.expand = (TraceLine.recBit false).expand ∧
  (∀ w : CommandWord, (TraceLine.word w.toNat).expand = some [w]) ∧
  (∀ (v : Bool) (n : Nat), ∃ ws, (TraceLine.recTimes v n).expand = some ws ∧
    ws.map decode = List.replicate n (.ok (.record v))) ∧
  ∀ bits : List Bool, ∃ ws, (TraceLine.recs bits).expand = some ws ∧
    ws.map decode = bits.map fun v => .ok (.record v)

/-! ## The machine's frame (00_scope.md section 6, 70_reset_and_hazards.md) -/

/-- R13, R105: a step with a legal command word at the port is that command, on the state without the word. -/
def Obligations.StepRunsDecodedCommand : Prop :=
  ∀ (s : State) (w : CommandWord) (rest : List HostEvent) (i : Instr),
    s.inputs = .command w :: rest → decode w = .ok i → step s = exec i { s with inputs := rest }

/-- A row's word, offered next, runs as the row's instruction on the state as it was. -/
def Obligations.OfferedWordRuns : Prop :=
  ∀ (s : State) (nbits w : Nat) (i : Instr),
    decodeTableWord nbits w = some i → step (s.withFetchWord nbits w) = exec i s

/-- R107, R110: with no event of the host the state does not change. -/
def Obligations.WaitingChangesNothing : Prop :=
  ∀ s : State, s.inputs = [] → step s = .next s

/-- R27's reset column and R102 for `State.reset`. That no event is pending, nothing has been sent and the instance is
the default one is the model's choice (log entries 4, 5, 6). -/
def Obligations.ResetStateValues : Prop :=
  State.reset.configured = false ∧ State.reset.capacity = 0 ∧ State.reset.nwords = 0 ∧ State.reset.cursor = 0 ∧
  State.reset.observed = 0 ∧ State.reset.valid = false ∧ State.reset.cnum = 0 ∧ State.reset.cden = 0 ∧
  State.reset.maxCapacity = 268435455 ∧ State.reset.inputs = [] ∧ State.reset.responses = []

/-- R27's reset column and R102 for a reset event in any state: it sends no response, and the words may come out as any
contents of the array (log entry 3). -/
def Obligations.ResetEventValues : Prop :=
  ∀ (s : State) (l : List (Nat × Word)) (rest : List HostEvent), s.inputs = .reset l :: rest →
    ∃ t, step s = .next t ∧
      t.configured = false ∧ t.capacity = 0 ∧ t.nwords = 0 ∧ t.cursor = 0 ∧ t.observed = 0 ∧ t.valid = false ∧
      t.cnum = 0 ∧ t.cden = 0 ∧ t.maxCapacity = s.maxCapacity ∧ t.inputs = rest ∧ t.responses = s.responses ∧
      (Memory.wf l = true → Memory.inside (Config.nwordsMax s.maxCapacity) l = true → t.words = l)

/-! ## NEW (40_new.md) -/

/-- R64 and R27's second column: NEW with an acceptable capacity creates a fresh counter, whether or not one exists. -/
def Obligations.NewCreatesCounter : Prop :=
  ∀ (cap : Count) (s : State), 1 ≤ cap.toNat → cap.toNat ≤ s.maxCapacity.toNat →
    ∃ t, exec (.new cap) s = .next t ∧
      t.configured = true ∧ t.capacity = cap ∧ t.nwords.toNat = (cap.toNat + 63) / 64 ∧ t.cursor = 0 ∧
      t.observed = 0 ∧ t.valid = false ∧ t.cnum = 0 ∧ t.cden = 0 ∧
      (∀ i, t.words.read i = if i < (cap.toNat + 63) / 64 then 0 else s.words.read i) ∧
      t.maxCapacity = s.maxCapacity ∧ t.inputs = s.inputs ∧
      t.responses = s.responses ++ [0x0000000000000000#64]

/-- R65: NEW with an unacceptable capacity writes nothing and answers InvalidCapacity or CapacityTooLarge, which exclude
each other; with the default `MAX_CAPACITY` the latter cannot occur. -/
def Obligations.NewRefusesBadCapacity : Prop :=
  (∀ s : State, exec (.new 0) s = .next { s with responses := s.responses ++ [0x1000000000000000#64] }) ∧
  (∀ (cap : Count) (s : State), s.maxCapacity.toNat < cap.toNat →
    exec (.new cap) s = .next { s with responses := s.responses ++ [0x4000000000000000#64] }) ∧
  (∀ (cap : Count) (s : State), ¬ (cap = 0 ∧ s.maxCapacity.toNat < cap.toNat)) ∧
  ∀ (cap : Count) (s : State), s.maxCapacity = 268435455 → ¬ s.maxCapacity.toNat < cap.toNat

/-- R23, R64, R66: the frame of NEW. It leaves the instance and the host's events alone, words at `ceil(cap / 64)` and
above as they were, and sends one response. -/
def Obligations.NewFrame : Prop :=
  ∀ (cap : Count) (s t : State), exec (.new cap) s = .next t →
    t.maxCapacity = s.maxCapacity ∧ t.inputs = s.inputs ∧
    (∀ i, (cap.toNat + 63) / 64 ≤ i → t.words.read i = s.words.read i) ∧
    ∃ r, t.responses = s.responses ++ [r]

/-- R18, R85, R86: `NWORDS` is the least number of words that holds the capacity, and it fits 23 bits. -/
def Obligations.NwordsHoldsCapacity : Prop :=
  ∀ cap : Count, cap.toNat ≤ 64 * (nwordsOf cap).toNat ∧ 64 * (nwordsOf cap).toNat < cap.toNat + 64 ∧
    (nwordsOf cap).toNat ≤ 4194304

/-! ## Bit addressing (20_memory.md section 2) -/

/-- R39: the slices equal the quotient and remainder of R37, and `mask(p)` has exactly one bit set. -/
def Obligations.SlicesAddressSlot : Prop :=
  ∀ p : Count, widx p = (p.extractLsb 27 6).toNat ∧ widx p = p.toNat / 64 ∧
    boff p = 63 - (p.extractLsb 5 0).toNat ∧ boff p = (~~~(p.extractLsb 5 0)).toNat ∧ boff p = 63 - p.toNat % 64 ∧
    ∀ k, k < 64 → ((mask p).getLsbD k = true ↔ k = 63 - p.toNat % 64)

/-- R40: setting the slot at `p` changes exactly that bit of exactly that word. -/
def Obligations.SetSlotChangesOneBit : Prop :=
  ∀ (m : Memory) (p : Count) (v : Bool), m.wf = true →
    let m' := m.write (widx p) (setSlot (m.read (widx p)) p v)
    (∀ i, i ≠ p.toNat / 64 → Memory.read m' i = m.read i) ∧
    (∀ k, k < 64 → k ≠ 63 - p.toNat % 64 →
      (Memory.read m' (p.toNat / 64)).getLsbD k = (m.read (p.toNat / 64)).getLsbD k) ∧
    bitAt m' p.toNat = v ∧
    (bitAt m p.toNat = v → m' = m)

/-! ## REC (41_record.md) -/

/-- R67: REC writes the bit under the cursor, advances the cursor circularly, counts the observation, makes the memo
stale and touches nothing else; with no counter it answers NoCounter, and a word of REC with any of bits 27:1 set is
answered IllegalCommand whatever the state. -/
def Obligations.RecRecordsObservation : Prop :=
  (∀ (v : Bool) (s : State), Inv s → s.configured = true →
    ∃ t, exec (.record v) s = .next t ∧
      (∀ i, t.words.read i =
        if i = s.cursor.toNat / 64 then
          (if v then s.words.read i ||| (1#64 <<< (63 - s.cursor.toNat % 64))
           else s.words.read i &&& ~~~(1#64 <<< (63 - s.cursor.toNat % 64)))
        else s.words.read i) ∧
      t.cursor.toNat = (s.cursor.toNat + 1) % s.capacity.toNat ∧
      t.observed.toNat = min (s.observed.toNat + 1) s.capacity.toNat ∧
      t.valid = false ∧ t.configured = true ∧ t.capacity = s.capacity ∧ t.nwords = s.nwords ∧
      t.cnum = s.cnum ∧ t.cden = s.cden ∧ t.maxCapacity = s.maxCapacity ∧ t.inputs = s.inputs ∧
      t.responses = s.responses ++ [0x0000000000000000#64]) ∧
  (∀ (v : Bool) (s : State), s.configured = false →
    exec (.record v) s = .next { s with responses := s.responses ++ [0x3000000000000000#64] }) ∧
  ∀ (s : State) (w : CommandWord) (rest : List HostEvent), s.inputs = .command w :: rest →
    w.extractLsb 31 28 = 0x2#4 → w.extractLsb 27 1 ≠ 0#27 →
    step s = .next { s with inputs := rest, responses := s.responses ++ [0x5000000000000000#64] }

/-- R67: the frame of REC, in every state whose word array is canonical. -/
def Obligations.RecFrame : Prop :=
  ∀ (v : Bool) (s t : State), s.words.wf = true → exec (.record v) s = .next t →
    t.configured = s.configured ∧ t.capacity = s.capacity ∧ t.nwords = s.nwords ∧ t.cnum = s.cnum ∧
    t.cden = s.cden ∧ t.maxCapacity = s.maxCapacity ∧ t.inputs = s.inputs ∧
    (∀ i, i ≠ widx s.cursor → t.words.read i = s.words.read i) ∧
    (∀ q, q ≠ s.cursor.toNat → bitAt t.words q = bitAt s.words q) ∧
    ∃ r, t.responses = s.responses ++ [r]

/-- R68: in steady state REC replaces the one slot under the cursor; during ramp-up that slot held 0; and the cursor
wraps on the REC that writes position `CAPACITY - 1`, after which the buffer is full. -/
def Obligations.RecOverwritesAndWraps : Prop :=
  ∀ (v : Bool) (s : State), Inv s → s.configured = true →
    ∃ t, exec (.record v) s = .next t ∧
      bitAt t.words s.cursor.toNat = v ∧
      (∀ q, q ≠ s.cursor.toNat → bitAt t.words q = bitAt s.words q) ∧
      (s.observed.toNat < s.capacity.toNat → bitAt s.words s.cursor.toNat = false) ∧
      (s.cursor.toNat + 1 = s.capacity.toNat → t.cursor = 0 ∧ t.observed = t.capacity) ∧
      (s.cursor.toNat + 1 ≠ s.capacity.toNat → t.cursor.toNat = s.cursor.toNat + 1) ∧
      (s.observed = s.capacity → t.observed = s.observed)

/-- R90: with no counter REC and FRAC answer NoCounter and write nothing. -/
def Obligations.NoCounterAnswered : Prop :=
  ∀ s : State, s.configured = false →
    (∀ v, exec (.record v) s = .next { s with responses := s.responses ++ [0x3000000000000000#64] }) ∧
    exec .frac s = .next { s with responses := s.responses ++ [0x3000000000000000#64] }

/-- When REC stops, which no state a run reaches does: the word under the cursor is no word of the counter, or the cursor
would leave its register. The model's choice (log entries 9, 10), from R12 and R86. -/
def Obligations.RecStopsOutsideDomain : Prop :=
  ∀ (v : Bool) (s : State), (∃ f, exec (.record v) s = .fault f) ↔
    s.configured = true ∧
      (s.nwords.toNat ≤ s.cursor.toNat / 64 ∨ Config.nwordsMax s.maxCapacity ≤ s.cursor.toNat / 64 ∨
        s.cursor.toNat + 1 = 2 ^ 28)

/-! ## FRAC and the memo (42_fraction.md) -/

/-- R71: the miss path counts, fills the memo and answers; R73 for a counter with no observation. -/
def Obligations.FracMissCountsAndFills : Prop :=
  ∀ s : State, Inv s → s.configured = true → s.valid = false →
    ∃ sum : Count, sum.toNat = s.total ∧ s.total ≤ s.observed.toNat ∧
      exec .frac s = .next { s with
        cnum := sum
        cden := s.observed
        valid := true
        responses := s.responses ++
          [if s.observed = 0#28 then 0x2000000000000000#64 else pairWord sum s.observed] }

/-- R72: the hit path answers from the memo and writes nothing, and its response is the one the miss path would give. -/
def Obligations.FracHitAnswersFromMemo : Prop :=
  ∀ s : State, s.configured = true → s.valid = true →
    ∃ r : ResponseWord,
      r = (if s.observed = 0#28 then 0x2000000000000000#64 else pairWord s.cnum s.cden) ∧
      exec .frac s = .next { s with responses := s.responses ++ [r] } ∧
      (Inv s → s.cden = s.observed ∧ (s.observed = 0 → s.cnum = 0) ∧
        ∃ t, exec .frac { s with valid := false } = .next t ∧ t.responses = s.responses ++ [r])

/-- R73: FRAC before any REC answers Uninitialized with the pair 0/0, fills the memo, and answers the same again. -/
def Obligations.ZeroObservationsUninitialized : Prop :=
  ∀ s : State, Inv s → s.configured = true → s.observed = 0 →
    ∃ t, exec .frac s = .next t ∧
      t = { s with
        valid := true, cnum := 0, cden := 0
        responses := s.responses ++ [0x2000000000000000#64] } ∧
      exec .frac t = .next { t with responses := t.responses ++ [0x2000000000000000#64] }

/-- R26, R70: the frame of FRAC, from any state: it writes nothing but the memo and sends one response. -/
def Obligations.FracFrame : Prop :=
  ∀ s t : State, exec .frac s = .next t →
    t.configured = s.configured ∧ t.capacity = s.capacity ∧ t.nwords = s.nwords ∧ t.cursor = s.cursor ∧
    t.observed = s.observed ∧ t.words = s.words ∧ t.maxCapacity = s.maxCapacity ∧ t.inputs = s.inputs ∧
    (s.valid = true ∨ s.configured = false → t.valid = s.valid ∧ t.cnum = s.cnum ∧ t.cden = s.cden) ∧
    ∃ r, t.responses = s.responses ++ [r]

/-- When FRAC stops, which no state a run reaches does: a miss that would read a word there is not, or whose count does
not fit. The model's choice (log entries 9, 10), from R12 and R86. -/
def Obligations.FracStopsOutsideDomain : Prop :=
  ∀ s : State, (∃ f, exec .frac s = .fault f) ↔
    s.configured = true ∧ s.valid = false ∧
      (Config.nwordsMax s.maxCapacity < s.nwords.toNat ∨ 2 ^ 28 ≤ s.total)

/-- R46 (c) and the source's cache coherence: two FRAC commands with none between them get the same word. -/
def Obligations.ConsecutiveQueriesAgree : Prop :=
  ∀ s : State, Inv s →
    ∃ t u r, exec .frac s = .next t ∧ exec .frac t = .next u ∧
      t.responses = s.responses ++ [r] ∧ u.responses = t.responses ++ [r]

/-- R69, R71: a REC between two queries forces recomputation: the second answers the count of the state after it. -/
def Obligations.RecordForcesRecount : Prop :=
  ∀ (v : Bool) (s : State), Inv s → s.configured = true →
    ∃ t u x, exec .frac s = .next t ∧ exec (.record v) t = .next u ∧ exec .frac u = .next x ∧
      ∃ sum : Count, sum.toNat = u.total ∧ 1 ≤ u.observed.toNat ∧
        x.responses = u.responses ++ [pairWord sum u.observed]

/-- R74: the fraction a response stands for is in the unit interval. -/
def Obligations.FractionInUnitInterval : Prop :=
  val 0 0 = 0 ∧
  ∀ s : State, Inv s →
    ∃ t r, exec .frac s = .next t ∧ t.responses = s.responses ++ [r] ∧
      (responseNum r).toNat ≤ (responseDen r).toNat ∧
      0 ≤ val (responseNum r).toNat (responseDen r).toNat ∧ val (responseNum r).toNat (responseDen r).toNat ≤ 1

/-- R75: the memo's transition table, one clause per row. -/
def Obligations.MemoTransitions : Prop :=
  ∀ s t : State, Inv s → step s = .next t →
    (s.configured = false → s.valid = false) ∧
    (∀ l rest, s.inputs = .reset l :: rest → t.valid = false ∧ t.cnum = 0 ∧ t.cden = 0) ∧
    ∀ w rest, s.inputs = .command w :: rest →
      (∀ cap, decode w = .ok (.new cap) → expectedStatus w s = .ok →
        t.valid = false ∧ t.cnum = 0 ∧ t.cden = 0) ∧
      (∀ cap, decode w = .ok (.new cap) → expectedStatus w s ≠ .ok →
        t.valid = s.valid ∧ t.cnum = s.cnum ∧ t.cden = s.cden) ∧
      (∀ v, decode w = .ok (.record v) → expectedStatus w s = .ok →
        t.valid = false ∧ t.cnum = s.cnum ∧ t.cden = s.cden) ∧
      (decode w = .ok .frac → expectedStatus w s = .ok ∨ expectedStatus w s = .uninitialized →
        t.valid = true ∧ (s.valid = false → t.cnum.toNat = s.total ∧ t.cden = s.observed) ∧
          (s.valid = true → t.cnum = s.cnum ∧ t.cden = s.cden)) ∧
      (expectedStatus w s = .noCounter ∨ expectedStatus w s = .illegalCommand →
        t.valid = s.valid ∧ t.cnum = s.cnum ∧ t.cden = s.cden)

/-! ## The popcount reducer (43_popcount.md) -/

/-- R78: `PC1` is exact. -/
def Obligations.PcOneCountsBits : Prop := ∀ w : Word, pc1 w = popcount w

/-- R80: `PC4` is exact. -/
def Obligations.PcFourCountsBits : Prop :=
  ∀ w0 w1 w2 w3 : Word, pc4 w0 w1 w2 w3 = popcount w0 + popcount w1 + popcount w2 + popcount w3

/-- R82: `REDUCE` is the sum of the words' counts, whatever the number of words. -/
def Obligations.ReduceCountsBits : Prop :=
  ∀ (m : Memory) (n : Nat), reduce m n = ((List.range n).map fun i => popcount (m.read i)).sum

/-- R83: what the lanes of its table hold: every lane of `w`, `a`, `b`, `c`, `p`, `q`, `p8`, `q8`, `t` and `h`, and
lane 0 of `f` and `h3`. -/
def Obligations.LanesHoldCounts : Prop :=
  ∀ w w' w2 w3 : Word,
    (∀ k, k < 64 → lane w 1 k = bitsIn w k 1) ∧
    (∀ k, k < 32 → lane (pairSums w) 2 k = bitsIn w (2 * k) 2) ∧
    (∀ k, k < 16 → lane (nibbleSums (pairSums w)) 4 k = bitsIn w (4 * k) 4) ∧
    (∀ k, k < 8 → lane (byteSums (nibbleSums (pairSums w))) 8 k = bitsIn w (8 * k) 8) ∧
    (∀ k, k < 16 → lane (mergePair w w') 4 k = bitsIn w (4 * k) 4 + bitsIn w' (4 * k) 4) ∧
    (∀ k, k < 8 → lane (widenNibbles (mergePair w w')) 8 k = bitsIn w (8 * k) 8 + bitsIn w' (8 * k) 8) ∧
    (∀ k, k < 8 → lane (mergeGroup (mergePair w w') (mergePair w2 w3)) 8 k =
      bitsIn w (8 * k) 8 + bitsIn w' (8 * k) 8 + bitsIn w2 (8 * k) 8 + bitsIn w3 (8 * k) 8) ∧
    (∀ k, k < 4 → lane (widenBytes (mergeGroup (mergePair w w') (mergePair w2 w3))) 16 k =
      bitsIn w (16 * k) 16 + bitsIn w' (16 * k) 16 + bitsIn w2 (16 * k) 16 + bitsIn w3 (16 * k) 16) ∧
    lane (foldBytes (byteSums (nibbleSums (pairSums w)))) 8 0 = bitsIn w 0 64 ∧
    lane (foldHalves (widenBytes (mergeGroup (mergePair w w') (mergePair w2 w3)))) 16 0 =
      bitsIn w 0 64 + bitsIn w' 0 64 + bitsIn w2 0 64 + bitsIn w3 0 64

/-! ## The whole machine (10_state.md section 5, 60_exceptions.md) -/

/-- R28 to R33 hold at reset. -/
def Obligations.InvariantsAtReset : Prop := Inv State.reset

/-- R28 to R33: every step keeps the invariants, from any state that meets them. -/
def Obligations.StepKeepsInvariants : Prop := ∀ s t : State, Inv s → step s = .next t → Inv t

/-- R13, R107: no event hangs, faults or is refused. -/
def Obligations.StepAlwaysAnswers : Prop := ∀ s : State, Inv s → ∃ t, step s = .next t

/-- R32: the set bits are among the written slots. -/
def Obligations.TotalAtMostObserved : Prop :=
  ∀ s : State, Inv s → s.configured = true →
    s.total ≤ s.observed.toNat ∧ s.total ≤ s.capacity.toNat ∧ s.capacity.toNat < 2 ^ 28

/-- R93: the status of every command word in every state. -/
def Obligations.StatusOfEveryWord : Prop :=
  ∀ (s : State) (w : CommandWord) (rest : List HostEvent), Inv s → s.inputs = .command w :: rest →
    ∃ t r, step s = .next t ∧ t.responses = s.responses ++ [r] ∧ responseStatus r = (expectedStatus w s).code

/-- R55: whenever a step with a command word answers, it sends one response word, with its fields where format S has
them and bits 59:56 zero; R103, R107, R110: none for a reset and none without a command. That such a step does answer is
StepAlwaysAnswers. -/
def Obligations.OneResponsePerCommand : Prop :=
  ∀ s t : State, step s = .next t →
    (∀ w rest, s.inputs = .command w :: rest → t.inputs = rest ∧
      ∃ (r : ResponseWord) (st : Status) (num den : Count), t.responses = s.responses ++ [r] ∧
        r.toNat = st.code.toNat * 2 ^ 60 + num.toNat * 2 ^ 28 + den.toNat ∧ r.extractLsb 59 56 = 0x0#4) ∧
    ((∀ w rest, s.inputs ≠ .command w :: rest) → t.responses = s.responses)

/-- R57: `NUM` and `DEN` by command, and the complete list of response words. -/
def Obligations.ResponseFields : Prop :=
  ∀ (s : State) (w : CommandWord) (rest : List HostEvent), Inv s → s.inputs = .command w :: rest →
    ∃ t r, step s = .next t ∧ t.responses = s.responses ++ [r] ∧ LegalResponse s.maxCapacity r ∧
      (decode w ≠ .ok .frac ∨ responseStatus r ≠ 0 → responseNum r = 0 ∧ responseDen r = 0) ∧
      (decode w = .ok .frac → responseStatus r = 0 →
        (responseNum r).toNat = s.total ∧ responseDen r = s.observed)

/-- R94: a command that ends with status 1, 3, 4 or 5 writes no register and no word, in any state. -/
def Obligations.ErrorsWriteNothing : Prop :=
  ∀ (s t : State) (w : CommandWord) (rest : List HostEvent) (r : ResponseWord),
    s.inputs = .command w :: rest → step s = .next t → t.responses = s.responses ++ [r] →
    responseStatus r = 1 ∨ responseStatus r = 3 ∨ responseStatus r = 4 ∨ responseStatus r = 5 →
    t = { s with inputs := rest, responses := s.responses ++ [r] }

/-- R16, R17, R99: the capacity changes only by a NEW that succeeds, and a counter ends only by reset. -/
def Obligations.CounterLifetime : Prop :=
  ∀ (s t : State) (w : CommandWord) (rest : List HostEvent),
    s.inputs = .command w :: rest → step s = .next t →
    (s.configured = true → t.configured = true) ∧
    (s.configured = false → t.configured = true → ∃ cap, decode w = .ok (.new cap)) ∧
    (t.capacity = s.capacity ∧ t.nwords = s.nwords ∨
      decode w = .ok (.new t.capacity) ∧ 1 ≤ t.capacity.toNat ∧ t.capacity.toNat ≤ s.maxCapacity.toNat)

/-- R8, R110: no step changes `MAX_CAPACITY`. -/
def Obligations.MaxCapacityFixed : Prop := ∀ s t : State, step s = .next t → t.maxCapacity = s.maxCapacity

/-- R20: within the life of one counter the observation count never decreases and never passes the capacity. -/
def Obligations.ObservedNeverDecreases : Prop :=
  ∀ (s t : State) (w : CommandWord) (rest : List HostEvent), Inv s →
    s.inputs = .command w :: rest → step s = .next t →
    (∃ cap, decode w = .ok (.new cap) ∧ expectedStatus w s = .ok ∧ t.observed = 0) ∨
    (s.observed.toNat ≤ t.observed.toNat ∧ t.observed.toNat ≤ s.observed.toNat + 1 ∧
      t.observed.toNat ≤ s.capacity.toNat)

/-- R34: the history reading. A NEW that succeeds starts an empty history, a REC appends its value, every other command
keeps it. -/
def Obligations.StepExtendsHistory : Prop :=
  ∀ (s t : State) (w : CommandWord) (rest : List HostEvent) (h : List Bool),
    Inv s → s.configured = true → Reflects h s → s.inputs = .command w :: rest → step s = .next t →
    (∀ cap, decode w = .ok (.new cap) → expectedStatus w s = .ok → Reflects [] t) ∧
    (∀ v, decode w = .ok (.record v) → Reflects (h ++ [v]) t) ∧
    (decode w = .ok .frac ∨ expectedStatus w s ≠ .ok → Reflects h t)

/-- R34, R68 and the source's ramp-up and steady-state properties: FRAC answers the ones among the retained
observations over their number. -/
def Obligations.FracAnswersWindow : Prop :=
  ∀ (s : State) (h : List Bool), Inv s → s.configured = true → Reflects h s → h ≠ [] →
    ∃ t r, exec .frac s = .next t ∧ t.responses = s.responses ++ [r] ∧ responseStatus r = 0 ∧
      (responseNum r).toNat = (window s.capacity.toNat h).count true ∧
      (responseDen r).toNat = min h.length s.capacity.toNat

/-- R16, R23, R27: words outside the counter are never read. Two states that differ only there, and in what resets leave
there, give the same responses and stay so. -/
def Obligations.OutsideWordsNeverRead : Prop :=
  ∀ s t : State, Inv s → Inv t → SameCounter s t →
    ∃ s' t', step s = .next s' ∧ step t = .next t' ∧ SameCounter s' t'

/-! ## The ports, edge by edge (70_reset_and_hazards.md section 2) -/

/-- R102, R103: an edge with `rst` gives the reset column, sends no response and abandons a command in progress; it is
what a reset event is to the command-level machine. -/
def Obligations.ResetEdgeWins : Prop :=
  ∀ (c : Clocked) (i : PortIn), i.rst = true →
    ∃ t : State, clockEdge c i = .next { state := t, phase := Phase.waiting i.pause } ∧
      t.configured = false ∧ t.capacity = 0 ∧ t.nwords = 0 ∧ t.cursor = 0 ∧ t.observed = 0 ∧ t.valid = false ∧
      t.cnum = 0 ∧ t.cden = 0 ∧ t.responses = c.state.responses ∧ t.inputs = c.state.inputs ∧
      t.maxCapacity = c.state.maxCapacity ∧
      step { c.state with inputs := .reset i.leftover :: c.state.inputs } = .next t

/-- R104, R105: `rsp_valid` is high for one cycle, and `cmd_ready` is 0 in that cycle. -/
def Obligations.ResponseLastsOneCycle : Prop :=
  ∀ (c c' : Clocked) (i : PortIn), c.rsp ≠ none → clockEdge c i = .next c' → c.cmdReady = false ∧ c'.rsp = none

/-- R105: a word offered while `cmd_ready = 0` is not seen. -/
def Obligations.NotReadyIgnoresOffer : Prop :=
  ∀ (c : Clocked) (i : PortIn) (w : CommandWord) (b : Bool), c.cmdReady = false → i.rst = false →
    clockEdge c { i with cmdValid := b, cmdWord := w } = clockEdge c i

/-- R105, R112: whatever its latency, an accepted command leaves the state and the response pin alone until it completes,
then gives the state and the one response that `step` gives, and `cmd_ready` returns. That the latency and the pause
are inputs is log entry 11's, that all the writes land at the response edge log entry 15's. -/
def Obligations.HandshakeRefinesStep : Prop :=
  ∀ (s t : State) (w : CommandWord) (offer : PortIn) (wait after : List PortIn),
    step { s with inputs := .command w :: s.inputs } = .next t →
    offer.rst = false → offer.cmdValid = true → offer.cmdWord = w →
    (∀ i ∈ wait, i.rst = false) → wait.length = offer.latency →
    (∀ i ∈ after, i.rst = false) → after.length = offer.pause + 1 →
    (∀ k, k < offer.latency → ∃ c, clockEdges { state := s, phase := .ready } (offer :: wait.take k) = .next c ∧
      c.state = s ∧ c.cmdReady = false ∧ c.rsp = none) ∧
    (∃ c, clockEdges { state := s, phase := .ready } (offer :: wait) = .next c ∧
      c.state = t ∧ c.cmdReady = false ∧ ∃ r, c.rsp = some r ∧ t.responses = s.responses ++ [r]) ∧
    clockEdges { state := s, phase := .ready } (offer :: (wait ++ after)) = .next { state := t, phase := .ready }
end

