-- ==== Sys2Proof/Laws/Memory.lean ====
section
/-! SUPPORT. The laws of the word array: a read after a write, what clearing does, and that every operation keeps the
canonical form and stays inside the array. -/

namespace Sys2Proof.Machine

/-! ### The canonical form, from a lower bound -/

theorem Memory.wfFrom_mono {lo lo' : Nat} {m : Memory} (h : lo ≤ lo') (hm : Memory.wfFrom lo' m = true) :
    Memory.wfFrom lo m = true := by
  cases m with
  | nil => rfl
  | cons c m =>
    obtain ⟨i, w⟩ := c
    simp only [Memory.wfFrom, Bool.and_eq_true, decide_eq_true_eq] at hm ⊢
    exact ⟨⟨le_trans h hm.1.1, hm.1.2⟩, hm.2⟩

/-- An index below every listed one reads as unlisted. -/
theorem Memory.read_of_lt_bound {lo i : Nat} {m : Memory} (hm : Memory.wfFrom lo m = true) (h : i < lo) :
    m.read i = Memory.unlisted := by
  induction m generalizing lo with
  | nil => rfl
  | cons c m ih =>
    obtain ⟨j, w⟩ := c
    simp only [Memory.wfFrom, Bool.and_eq_true, decide_eq_true_eq] at hm
    rw [Memory.read, if_neg (by omega)]
    exact ih hm.2 (by omega)

/-! ### Writing a word -/

theorem Memory.read_write_from {lo : Nat} {m : Memory} (hm : Memory.wfFrom lo m = true) (i j : Nat) (v : Word) :
    (m.write i v).read j = if j = i then v else m.read j := by
  induction m generalizing lo with
  | nil =>
    by_cases hv : v = Memory.unlisted
    · simp [Memory.write, Memory.read, hv]
    · simp [Memory.write, Memory.read, hv, eq_comm]
  | cons c m ih =>
    obtain ⟨k, w⟩ := c
    simp only [Memory.wfFrom, Bool.and_eq_true, decide_eq_true_eq] at hm
    rcases Nat.lt_trichotomy i k with hik | rfl | hki
    · have hi : Memory.read m i = Memory.unlisted := Memory.read_of_lt_bound hm.2 (by omega)
      by_cases hv : v = Memory.unlisted
      · rw [Memory.write, if_pos hik, if_pos hv]
        by_cases hj : j = i
        · subst hj; rw [if_pos rfl, Memory.read, if_neg (by omega), hi, hv]
        · rw [if_neg hj]
      · rw [Memory.write, if_pos hik, if_neg hv, Memory.read]
        simp only [eq_comm]
    · have hi : Memory.read m i = Memory.unlisted := Memory.read_of_lt_bound hm.2 (by omega)
      by_cases hv : v = Memory.unlisted
      · rw [Memory.write, if_neg (by omega), if_pos rfl, if_pos hv]
        by_cases hj : j = i
        · subst hj; rw [if_pos rfl, hi, hv]
        · rw [if_neg hj, Memory.read, if_neg (by omega)]
      · rw [Memory.write, if_neg (by omega), if_pos rfl, if_neg hv, Memory.read, Memory.read]
        by_cases hj : j = i
        · simp [hj]
        · rw [if_neg (by omega), if_neg hj, if_neg (by omega)]
    · rw [Memory.write, if_neg (by omega), if_neg (by omega), Memory.read, Memory.read]
      by_cases hj : k = j
      · rw [if_pos hj, if_pos hj, if_neg (by omega)]
      · rw [if_neg hj, if_neg hj, ih hm.2]

/-- A read after a write: the written word at its index, every other word as it was. -/
theorem Memory.read_write {m : Memory} (hm : m.wf = true) (i j : Nat) (v : Word) :
    (m.write i v).read j = if j = i then v else m.read j :=
  Memory.read_write_from hm i j v

theorem Memory.wfFrom_write {lo : Nat} {m : Memory} (hm : Memory.wfFrom lo m = true) {i : Nat} (hi : lo ≤ i)
    (v : Word) : Memory.wfFrom lo (m.write i v) = true := by
  induction m generalizing lo with
  | nil =>
    by_cases hv : v = Memory.unlisted
    · simp [Memory.write, Memory.wfFrom, hv]
    · simp [Memory.write, Memory.wfFrom, hv, hi]
  | cons c m ih =>
    obtain ⟨k, w⟩ := c
    have hm' := hm
    simp only [Memory.wfFrom, Bool.and_eq_true, decide_eq_true_eq] at hm
    rw [Memory.write]
    split_ifs with h1 h2 h3 h4
    · exact hm'
    · simp only [Memory.wfFrom, Bool.and_eq_true, decide_eq_true_eq, bne_iff_ne, ne_eq]
      exact ⟨⟨hi, h2⟩, ⟨⟨h1, by simpa using hm.1.2⟩, hm.2⟩⟩
    · exact Memory.wfFrom_mono (by omega) hm.2
    · simp only [Memory.wfFrom, Bool.and_eq_true, decide_eq_true_eq, bne_iff_ne, ne_eq]
      exact ⟨⟨hi, h4⟩, h3 ▸ hm.2⟩
    · simp only [Memory.wfFrom, Bool.and_eq_true, decide_eq_true_eq]
      exact ⟨hm.1, ih hm.2 (by omega)⟩

/-- A write keeps the canonical form. -/
theorem Memory.wf_write {m : Memory} (hm : m.wf = true) (i : Nat) (v : Word) : (m.write i v).wf = true :=
  Memory.wfFrom_write hm (Nat.zero_le i) v

/-- A write inside the array stays inside it. -/
theorem Memory.inside_write {n : Nat} {m : Memory} (hm : m.inside n = true) {i : Nat} (hi : i < n) (v : Word) :
    (m.write i v).inside n = true := by
  induction m with
  | nil =>
    rw [Memory.write]
    split_ifs
    · rfl
    · simp [Memory.inside, hi]
  | cons c m ih =>
    obtain ⟨k, w⟩ := c
    simp only [Memory.inside, List.all_cons, Bool.and_eq_true, decide_eq_true_eq] at hm ih
    rw [Memory.write]
    split_ifs <;>
      simp only [Memory.inside, List.all_cons, Bool.and_eq_true, decide_eq_true_eq]
    · exact hm
    · exact ⟨hi, hm⟩
    · exact hm.2
    · exact ⟨hi, hm.2⟩
    · exact ⟨hm.1, ih hm.2⟩

/-! ### Clearing words -/

/-- Clearing below `n`: zero there, every other word as it was. -/
theorem Memory.read_clearBelow (n i : Nat) (m : Memory) :
    (Memory.clearBelow n m).read i = if i < n then Memory.unlisted else m.read i := by
  induction m with
  | nil => simp [Memory.clearBelow, Memory.read]
  | cons c m ih =>
    obtain ⟨k, w⟩ := c
    rw [Memory.clearBelow] at ih ⊢
    by_cases hk : n ≤ k
    · rw [List.filter_cons_of_pos (by simpa using hk), Memory.read, Memory.read, ih]
      split_ifs <;> first | rfl | omega
    · rw [List.filter_cons_of_neg (by simpa using hk), ih, Memory.read]
      split_ifs <;> first | rfl | omega

theorem Memory.wfFrom_clearBelow {lo : Nat} {m : Memory} (hm : Memory.wfFrom lo m = true) (n : Nat) :
    Memory.wfFrom lo (Memory.clearBelow n m) = true := by
  induction m generalizing lo with
  | nil => rfl
  | cons c m ih =>
    obtain ⟨k, w⟩ := c
    simp only [Memory.wfFrom, Bool.and_eq_true, decide_eq_true_eq] at hm
    rw [Memory.clearBelow] at ih ⊢
    by_cases hk : n ≤ k
    · rw [List.filter_cons_of_pos (by simpa using hk)]
      simp only [Memory.wfFrom, Bool.and_eq_true, decide_eq_true_eq]
      exact ⟨hm.1, ih hm.2⟩
    · rw [List.filter_cons_of_neg (by simpa using hk)]
      exact Memory.wfFrom_mono (by omega) (ih hm.2)

/-- Clearing keeps the canonical form. -/
theorem Memory.wf_clearBelow {m : Memory} (hm : m.wf = true) (n : Nat) : (Memory.clearBelow n m).wf = true :=
  Memory.wfFrom_clearBelow hm n

/-- Clearing stays inside the array. -/
theorem Memory.inside_clearBelow {k : Nat} {m : Memory} (hm : m.inside k = true) (n : Nat) :
    (Memory.clearBelow n m).inside k = true := by
  simp only [Memory.inside, List.all_eq_true, Memory.clearBelow] at hm ⊢
  exact fun c hc => hm c (List.mem_of_mem_filter hc)

/-! ### Any contents a reset may leave -/

/-- Writing cells into a canonical array that fits keeps both. -/
theorem Memory.wf_foldl_cells (size : Nat) (cells : List (Nat × Word)) (m : Memory)
    (hm : m.wf = true) (hi : m.inside size = true) :
    (cells.foldl (fun m c => if c.1 < size then Memory.write m c.1 c.2 else m) m).wf = true ∧
    Memory.inside size (cells.foldl (fun m c => if c.1 < size then Memory.write m c.1 c.2 else m) m) = true := by
  induction cells generalizing m with
  | nil => exact ⟨hm, hi⟩
  | cons c cells ih =>
    rw [List.foldl_cons]
    split_ifs with hc
    · exact ih _ (Memory.wf_write hm _ _) (Memory.inside_write hi hc _)
    · exact ih _ hm hi

theorem Memory.wf_ofCells (size : Nat) (cells : List (Nat × Word)) : (Memory.ofCells size cells).wf = true :=
  (Memory.wf_foldl_cells size cells [] rfl rfl).1

theorem Memory.inside_ofCells (size : Nat) (cells : List (Nat × Word)) :
    (Memory.ofCells size cells).inside size = true :=
  (Memory.wf_foldl_cells size cells [] rfl rfl).2

/-! ### Equal arrays are equal data -/

theorem Memory.ext_from {lo : Nat} {m m' : Memory} (hm : Memory.wfFrom lo m = true) (hm' : Memory.wfFrom lo m' = true)
    (h : ∀ i, m.read i = m'.read i) : m = m' := by
  induction m generalizing lo m' with
  | nil =>
    cases m' with
    | nil => rfl
    | cons c m' =>
      obtain ⟨k, w⟩ := c
      simp only [Memory.wfFrom, Bool.and_eq_true, bne_iff_ne, ne_eq] at hm'
      have := h k
      rw [Memory.read, Memory.read, if_pos rfl] at this
      exact absurd this.symm hm'.1.2
  | cons c m ih =>
    obtain ⟨k, w⟩ := c
    have hmc := hm
    simp only [Memory.wfFrom, Bool.and_eq_true, bne_iff_ne, ne_eq, decide_eq_true_eq] at hm
    cases m' with
    | nil =>
      have := h k
      simp only [Memory.read, if_true] at this
      exact absurd this hm.1.2
    | cons c' m' =>
      obtain ⟨k', w'⟩ := c'
      have hmc' := hm'
      simp only [Memory.wfFrom, Bool.and_eq_true, bne_iff_ne, ne_eq, decide_eq_true_eq] at hm'
      have tail : ∀ {k : Nat} {w : Word} {m : Memory}, Memory.wfFrom (k + 1) m = true → ∀ i, i < k →
          Memory.read ((k, w) :: m) i = Memory.unlisted := by
        intro k w m hm i hi
        rw [Memory.read, if_neg (by omega), Memory.read_of_lt_bound hm (by omega)]
      rcases Nat.lt_trichotomy k k' with hk | rfl | hk
      · have := h k
        rw [tail hm'.2 k hk, Memory.read, if_pos rfl] at this
        exact absurd this hm.1.2
      · have hw := h k
        rw [Memory.read, if_pos rfl, Memory.read, if_pos rfl] at hw
        subst hw
        congr 1
        refine ih hm.2 hm'.2 fun i => ?_
        by_cases hi : k = i
        · rw [Memory.read_of_lt_bound hm.2 (by omega), Memory.read_of_lt_bound hm'.2 (by omega)]
        · have := h i
          rwa [Memory.read, if_neg hi, Memory.read, if_neg hi] at this
      · have := h k'
        rw [tail hm.2 k' hk, Memory.read, if_pos rfl] at this
        exact absurd this.symm hm'.1.2

/-- Two canonical arrays with the same words are equal. -/
theorem Memory.ext {m m' : Memory} (hm : m.wf = true) (hm' : m'.wf = true) (h : ∀ i, m.read i = m'.read i) : m = m' :=
  Memory.ext_from hm hm' h

/-- Clearing is the loop of NEW as R64 writes it: `WORDS[i] <- 0` for `i` in `0 .. n-1`. -/
theorem Memory.clearBelow_eq_loop {m : Memory} (hm : m.wf = true) (n : Nat) :
    Memory.clearBelow n m = (List.range n).foldl (fun m i => Memory.write m i 0#64) m := by
  have loop : ∀ n, ((List.range n).foldl (fun m i => Memory.write m i 0#64) m).wf = true ∧
      ∀ i, Memory.read ((List.range n).foldl (fun m i => Memory.write m i 0#64) m) i =
        if i < n then Memory.unlisted else m.read i := by
    intro n
    induction n with
    | zero => exact ⟨hm, fun i => by simp⟩
    | succ n ih =>
      rw [List.range_succ, List.foldl_append, List.foldl_cons, List.foldl_nil]
      refine ⟨Memory.wf_write ih.1 _ _, fun i => ?_⟩
      rw [Memory.read_write ih.1, ih.2]
      by_cases hi : i = n
      · subst hi; simp [Memory.unlisted]
      · by_cases hlt : i < n
        · rw [if_neg hi, if_pos hlt, if_pos (by omega)]
        · rw [if_neg hi, if_neg hlt, if_neg (by omega)]
  refine Memory.ext (Memory.wf_clearBelow hm n) (loop n).1 fun i => ?_
  rw [Memory.read_clearBelow, (loop n).2]

end Sys2Proof.Machine
end

