-- ==== Sys2Proof/Laws/State.lean ====
section
/-! SUPPORT. One lemma per field per update of the state, each true by unfolding the update once. The proofs read
`(rfl)` and not `rfl`, so that simp rewrites the condition of an `if` together with its decision procedure. -/

namespace Sys2Proof.Machine

variable (s : State)

/-! ### `State.respond` -/

@[simp] theorem State.respond_configured (st : Status) (num den : Count) : (s.respond st num den).configured = s.configured := (rfl)
@[simp] theorem State.respond_capacity (st : Status) (num den : Count) : (s.respond st num den).capacity = s.capacity := (rfl)
@[simp] theorem State.respond_nwords (st : Status) (num den : Count) : (s.respond st num den).nwords = s.nwords := (rfl)
@[simp] theorem State.respond_cursor (st : Status) (num den : Count) : (s.respond st num den).cursor = s.cursor := (rfl)
@[simp] theorem State.respond_observed (st : Status) (num den : Count) : (s.respond st num den).observed = s.observed := (rfl)
@[simp] theorem State.respond_valid (st : Status) (num den : Count) : (s.respond st num den).valid = s.valid := (rfl)
@[simp] theorem State.respond_cnum (st : Status) (num den : Count) : (s.respond st num den).cnum = s.cnum := (rfl)
@[simp] theorem State.respond_cden (st : Status) (num den : Count) : (s.respond st num den).cden = s.cden := (rfl)
@[simp] theorem State.respond_words (st : Status) (num den : Count) : (s.respond st num den).words = s.words := (rfl)
@[simp] theorem State.respond_maxCapacity (st : Status) (num den : Count) : (s.respond st num den).maxCapacity = s.maxCapacity := (rfl)
@[simp] theorem State.respond_inputs (st : Status) (num den : Count) : (s.respond st num den).inputs = s.inputs := (rfl)
@[simp] theorem State.respond_responses (st : Status) (num den : Count) : (s.respond st num den).responses = s.responses ++ [responseWord st num den] := (rfl)

/-! ### `State.raise` -/

@[simp] theorem State.raise_configured (st : Status) : (s.raise st).configured = s.configured := (rfl)
@[simp] theorem State.raise_capacity (st : Status) : (s.raise st).capacity = s.capacity := (rfl)
@[simp] theorem State.raise_nwords (st : Status) : (s.raise st).nwords = s.nwords := (rfl)
@[simp] theorem State.raise_cursor (st : Status) : (s.raise st).cursor = s.cursor := (rfl)
@[simp] theorem State.raise_observed (st : Status) : (s.raise st).observed = s.observed := (rfl)
@[simp] theorem State.raise_valid (st : Status) : (s.raise st).valid = s.valid := (rfl)
@[simp] theorem State.raise_cnum (st : Status) : (s.raise st).cnum = s.cnum := (rfl)
@[simp] theorem State.raise_cden (st : Status) : (s.raise st).cden = s.cden := (rfl)
@[simp] theorem State.raise_words (st : Status) : (s.raise st).words = s.words := (rfl)
@[simp] theorem State.raise_maxCapacity (st : Status) : (s.raise st).maxCapacity = s.maxCapacity := (rfl)
@[simp] theorem State.raise_inputs (st : Status) : (s.raise st).inputs = s.inputs := (rfl)
@[simp] theorem State.raise_responses (st : Status) : (s.raise st).responses = s.responses ++ [responseWord st 0 0] := (rfl)

/-! ### `State.illegalCommand` -/

@[simp] theorem State.illegalCommand_configured : (s.illegalCommand).configured = s.configured := (rfl)
@[simp] theorem State.illegalCommand_capacity : (s.illegalCommand).capacity = s.capacity := (rfl)
@[simp] theorem State.illegalCommand_nwords : (s.illegalCommand).nwords = s.nwords := (rfl)
@[simp] theorem State.illegalCommand_cursor : (s.illegalCommand).cursor = s.cursor := (rfl)
@[simp] theorem State.illegalCommand_observed : (s.illegalCommand).observed = s.observed := (rfl)
@[simp] theorem State.illegalCommand_valid : (s.illegalCommand).valid = s.valid := (rfl)
@[simp] theorem State.illegalCommand_cnum : (s.illegalCommand).cnum = s.cnum := (rfl)
@[simp] theorem State.illegalCommand_cden : (s.illegalCommand).cden = s.cden := (rfl)
@[simp] theorem State.illegalCommand_words : (s.illegalCommand).words = s.words := (rfl)
@[simp] theorem State.illegalCommand_maxCapacity : (s.illegalCommand).maxCapacity = s.maxCapacity := (rfl)
@[simp] theorem State.illegalCommand_inputs : (s.illegalCommand).inputs = s.inputs := (rfl)
@[simp] theorem State.illegalCommand_responses : (s.illegalCommand).responses = s.responses ++ [responseWord .illegalCommand 0 0] := (rfl)

/-! ### `State.withInputs` -/

@[simp] theorem State.withInputs_configured (es : List HostEvent) : (s.withInputs es).configured = s.configured := (rfl)
@[simp] theorem State.withInputs_capacity (es : List HostEvent) : (s.withInputs es).capacity = s.capacity := (rfl)
@[simp] theorem State.withInputs_nwords (es : List HostEvent) : (s.withInputs es).nwords = s.nwords := (rfl)
@[simp] theorem State.withInputs_cursor (es : List HostEvent) : (s.withInputs es).cursor = s.cursor := (rfl)
@[simp] theorem State.withInputs_observed (es : List HostEvent) : (s.withInputs es).observed = s.observed := (rfl)
@[simp] theorem State.withInputs_valid (es : List HostEvent) : (s.withInputs es).valid = s.valid := (rfl)
@[simp] theorem State.withInputs_cnum (es : List HostEvent) : (s.withInputs es).cnum = s.cnum := (rfl)
@[simp] theorem State.withInputs_cden (es : List HostEvent) : (s.withInputs es).cden = s.cden := (rfl)
@[simp] theorem State.withInputs_words (es : List HostEvent) : (s.withInputs es).words = s.words := (rfl)
@[simp] theorem State.withInputs_maxCapacity (es : List HostEvent) : (s.withInputs es).maxCapacity = s.maxCapacity := (rfl)
@[simp] theorem State.withInputs_inputs (es : List HostEvent) : (s.withInputs es).inputs = es := (rfl)
@[simp] theorem State.withInputs_responses (es : List HostEvent) : (s.withInputs es).responses = s.responses := (rfl)

/-! ### `State.hardwareReset` -/

@[simp] theorem State.hardwareReset_configured (l : List (Nat × Word)) : (s.hardwareReset l).configured = false := (rfl)
@[simp] theorem State.hardwareReset_capacity (l : List (Nat × Word)) : (s.hardwareReset l).capacity = 0 := (rfl)
@[simp] theorem State.hardwareReset_nwords (l : List (Nat × Word)) : (s.hardwareReset l).nwords = 0 := (rfl)
@[simp] theorem State.hardwareReset_cursor (l : List (Nat × Word)) : (s.hardwareReset l).cursor = 0 := (rfl)
@[simp] theorem State.hardwareReset_observed (l : List (Nat × Word)) : (s.hardwareReset l).observed = 0 := (rfl)
@[simp] theorem State.hardwareReset_valid (l : List (Nat × Word)) : (s.hardwareReset l).valid = false := (rfl)
@[simp] theorem State.hardwareReset_cnum (l : List (Nat × Word)) : (s.hardwareReset l).cnum = 0 := (rfl)
@[simp] theorem State.hardwareReset_cden (l : List (Nat × Word)) : (s.hardwareReset l).cden = 0 := (rfl)
@[simp] theorem State.hardwareReset_words (l : List (Nat × Word)) : (s.hardwareReset l).words = Memory.ofCells (Config.nwordsMax s.maxCapacity) l := (rfl)
@[simp] theorem State.hardwareReset_maxCapacity (l : List (Nat × Word)) : (s.hardwareReset l).maxCapacity = s.maxCapacity := (rfl)
@[simp] theorem State.hardwareReset_inputs (l : List (Nat × Word)) : (s.hardwareReset l).inputs = s.inputs := (rfl)
@[simp] theorem State.hardwareReset_responses (l : List (Nat × Word)) : (s.hardwareReset l).responses = s.responses := (rfl)

/-! ### `State.makeStale` -/

@[simp] theorem State.makeStale_configured : (s.makeStale).configured = s.configured := (rfl)
@[simp] theorem State.makeStale_capacity : (s.makeStale).capacity = s.capacity := (rfl)
@[simp] theorem State.makeStale_nwords : (s.makeStale).nwords = s.nwords := (rfl)
@[simp] theorem State.makeStale_cursor : (s.makeStale).cursor = s.cursor := (rfl)
@[simp] theorem State.makeStale_observed : (s.makeStale).observed = s.observed := (rfl)
@[simp] theorem State.makeStale_valid : (s.makeStale).valid = false := (rfl)
@[simp] theorem State.makeStale_cnum : (s.makeStale).cnum = s.cnum := (rfl)
@[simp] theorem State.makeStale_cden : (s.makeStale).cden = s.cden := (rfl)
@[simp] theorem State.makeStale_words : (s.makeStale).words = s.words := (rfl)
@[simp] theorem State.makeStale_maxCapacity : (s.makeStale).maxCapacity = s.maxCapacity := (rfl)
@[simp] theorem State.makeStale_inputs : (s.makeStale).inputs = s.inputs := (rfl)
@[simp] theorem State.makeStale_responses : (s.makeStale).responses = s.responses := (rfl)

/-! ### `State.clearMemo` -/

@[simp] theorem State.clearMemo_configured : (s.clearMemo).configured = s.configured := (rfl)
@[simp] theorem State.clearMemo_capacity : (s.clearMemo).capacity = s.capacity := (rfl)
@[simp] theorem State.clearMemo_nwords : (s.clearMemo).nwords = s.nwords := (rfl)
@[simp] theorem State.clearMemo_cursor : (s.clearMemo).cursor = s.cursor := (rfl)
@[simp] theorem State.clearMemo_observed : (s.clearMemo).observed = s.observed := (rfl)
@[simp] theorem State.clearMemo_valid : (s.clearMemo).valid = false := (rfl)
@[simp] theorem State.clearMemo_cnum : (s.clearMemo).cnum = 0 := (rfl)
@[simp] theorem State.clearMemo_cden : (s.clearMemo).cden = 0 := (rfl)
@[simp] theorem State.clearMemo_words : (s.clearMemo).words = s.words := (rfl)
@[simp] theorem State.clearMemo_maxCapacity : (s.clearMemo).maxCapacity = s.maxCapacity := (rfl)
@[simp] theorem State.clearMemo_inputs : (s.clearMemo).inputs = s.inputs := (rfl)
@[simp] theorem State.clearMemo_responses : (s.clearMemo).responses = s.responses := (rfl)

/-! ### `State.fillMemo` -/

@[simp] theorem State.fillMemo_configured (num den : Count) : (s.fillMemo num den).configured = s.configured := (rfl)
@[simp] theorem State.fillMemo_capacity (num den : Count) : (s.fillMemo num den).capacity = s.capacity := (rfl)
@[simp] theorem State.fillMemo_nwords (num den : Count) : (s.fillMemo num den).nwords = s.nwords := (rfl)
@[simp] theorem State.fillMemo_cursor (num den : Count) : (s.fillMemo num den).cursor = s.cursor := (rfl)
@[simp] theorem State.fillMemo_observed (num den : Count) : (s.fillMemo num den).observed = s.observed := (rfl)
@[simp] theorem State.fillMemo_valid (num den : Count) : (s.fillMemo num den).valid = true := (rfl)
@[simp] theorem State.fillMemo_cnum (num den : Count) : (s.fillMemo num den).cnum = num := (rfl)
@[simp] theorem State.fillMemo_cden (num den : Count) : (s.fillMemo num den).cden = den := (rfl)
@[simp] theorem State.fillMemo_words (num den : Count) : (s.fillMemo num den).words = s.words := (rfl)
@[simp] theorem State.fillMemo_maxCapacity (num den : Count) : (s.fillMemo num den).maxCapacity = s.maxCapacity := (rfl)
@[simp] theorem State.fillMemo_inputs (num den : Count) : (s.fillMemo num den).inputs = s.inputs := (rfl)
@[simp] theorem State.fillMemo_responses (num den : Count) : (s.fillMemo num den).responses = s.responses := (rfl)

/-! ### `State.create` -/

@[simp] theorem State.create_configured (cap : Count) : (s.create cap).configured = true := (rfl)
@[simp] theorem State.create_capacity (cap : Count) : (s.create cap).capacity = cap := (rfl)
@[simp] theorem State.create_nwords (cap : Count) : (s.create cap).nwords = nwordsOf cap := (rfl)
@[simp] theorem State.create_cursor (cap : Count) : (s.create cap).cursor = 0 := (rfl)
@[simp] theorem State.create_observed (cap : Count) : (s.create cap).observed = 0 := (rfl)
@[simp] theorem State.create_valid (cap : Count) : (s.create cap).valid = false := (rfl)
@[simp] theorem State.create_cnum (cap : Count) : (s.create cap).cnum = 0 := (rfl)
@[simp] theorem State.create_cden (cap : Count) : (s.create cap).cden = 0 := (rfl)
@[simp] theorem State.create_words (cap : Count) : (s.create cap).words = Memory.clearBelow (nwordsOf cap).toNat s.words := (rfl)
@[simp] theorem State.create_maxCapacity (cap : Count) : (s.create cap).maxCapacity = s.maxCapacity := (rfl)
@[simp] theorem State.create_inputs (cap : Count) : (s.create cap).inputs = s.inputs := (rfl)
@[simp] theorem State.create_responses (cap : Count) : (s.create cap).responses = s.responses := (rfl)

/-! ### `State.observe` -/

@[simp] theorem State.observe_configured (i : Nat) (w : Word) (c : Count) : (s.observe i w c).configured = s.configured := (rfl)
@[simp] theorem State.observe_capacity (i : Nat) (w : Word) (c : Count) : (s.observe i w c).capacity = s.capacity := (rfl)
@[simp] theorem State.observe_nwords (i : Nat) (w : Word) (c : Count) : (s.observe i w c).nwords = s.nwords := (rfl)
@[simp] theorem State.observe_cursor (i : Nat) (w : Word) (c : Count) : (s.observe i w c).cursor = c := (rfl)
@[simp] theorem State.observe_observed (i : Nat) (w : Word) (c : Count) : (s.observe i w c).observed = nextObserved s.capacity s.observed := (rfl)
@[simp] theorem State.observe_valid (i : Nat) (w : Word) (c : Count) : (s.observe i w c).valid = false := (rfl)
@[simp] theorem State.observe_cnum (i : Nat) (w : Word) (c : Count) : (s.observe i w c).cnum = s.cnum := (rfl)
@[simp] theorem State.observe_cden (i : Nat) (w : Word) (c : Count) : (s.observe i w c).cden = s.cden := (rfl)
@[simp] theorem State.observe_words (i : Nat) (w : Word) (c : Count) : (s.observe i w c).words = s.words.write i w := (rfl)
@[simp] theorem State.observe_maxCapacity (i : Nat) (w : Word) (c : Count) : (s.observe i w c).maxCapacity = s.maxCapacity := (rfl)
@[simp] theorem State.observe_inputs (i : Nat) (w : Word) (c : Count) : (s.observe i w c).inputs = s.inputs := (rfl)
@[simp] theorem State.observe_responses (i : Nat) (w : Word) (c : Count) : (s.observe i w c).responses = s.responses := (rfl)

end Sys2Proof.Machine
end

