-- ==== Sys2Proof/Laws/Ops.lean ====
section
/-! SUPPORT. What each shared operation can do, said once: the reads and narrowings that may fault, the answer of FRAC,
and the inversion of each meaning, of `runCommand` and of `step`. -/

namespace Sys2Proof.Machine

/-! ### Operations that may fault -/

theorem memRead_ok {s : State} {i : Nat} {w : Word} (h : memRead s i = .ok w) :
    i < s.nwords.toNat ∧ i < Config.nwordsMax s.maxCapacity ∧ w = s.words.read i := by
  unfold memRead at h
  split_ifs at h with hi
  · exact ⟨hi.1, hi.2, by cases h; rfl⟩

theorem memRead_eq {s : State} {i : Nat} (h : i < s.nwords.toNat) (h' : i < Config.nwordsMax s.maxCapacity) :
    memRead s i = .ok (s.words.read i) := if_pos ⟨h, h'⟩

theorem toCount_ok {n : Nat} {c : Count} (h : toCount n = .ok c) : n < 2 ^ 28 ∧ c.toNat = n := by
  unfold toCount at h
  split_ifs at h with hn
  cases h
  exact ⟨hn, by rw [BitVec.toNat_ofNat]; exact Nat.mod_eq_of_lt hn⟩

theorem toCount_eq {n : Nat} (h : n < 2 ^ 28) : toCount n = .ok (BitVec.ofNat 28 n) := if_pos h

theorem reduceWords_ok {s : State} {n : Nat} (h : reduceWords s = .ok n) :
    s.nwords.toNat ≤ Config.nwordsMax s.maxCapacity ∧ n = reduce s.words s.nwords.toNat := by
  unfold reduceWords at h
  split_ifs at h with hn
  exact ⟨hn, by cases h; rfl⟩

theorem reduceWords_eq {s : State} (h : s.nwords.toNat ≤ Config.nwordsMax s.maxCapacity) :
    reduceWords s = .ok (reduce s.words s.nwords.toNat) := if_pos h

theorem nextCursor_wrap {capacity p : Count} (h : p.toNat + 1 = capacity.toNat) : nextCursor capacity p = .ok 0 :=
  if_pos h

theorem nextCursor_step {capacity p : Count} (h : p.toNat + 1 ≠ capacity.toNat) (hp : p.toNat + 1 < 2 ^ 28) :
    nextCursor capacity p = .ok (BitVec.ofNat 28 (p.toNat + 1)) := (if_neg h).trans (toCount_eq hp)

/-! ### The inversion of each meaning -/

/-- Everything NEW can do (R64, R65): it always answers a next state. -/
theorem execNew_cases {cap : Count} {s t : State} (h : execNew cap s = .next t) :
    (cap.toNat = 0 ∧ t = s.raise .invalidCapacity) ∨
    (s.maxCapacity.toNat < cap.toNat ∧ t = s.raise .capacityTooLarge) ∨
    (1 ≤ cap.toNat ∧ cap.toNat ≤ s.maxCapacity.toNat ∧ t = (s.create cap).respond .ok 0 0) := by
  unfold execNew at h
  split_ifs at h with h0 h1
  · cases h; exact .inl ⟨h0, rfl⟩
  · cases h; exact .inr (.inl ⟨h1, rfl⟩)
  · cases h; exact .inr (.inr ⟨by omega, by omega, rfl⟩)

/-- Everything REC can do when it answers a next state (R67, R90). -/
theorem execRecord_cases {v : Bool} {s t : State} (h : execRecord v s = .next t) :
    (s.configured = false ∧ t = s.raise .noCounter) ∨
    (s.configured = true ∧ widx s.cursor < s.nwords.toNat ∧ widx s.cursor < Config.nwordsMax s.maxCapacity ∧
      ∃ next, nextCursor s.capacity s.cursor = .ok next ∧
        t = (s.observe (widx s.cursor) (setSlot (s.words.read (widx s.cursor)) s.cursor v) next).respond .ok 0 0) := by
  unfold execRecord at h
  split at h
  next hc =>
    split at h
    next old next hold hnext =>
      obtain ⟨h1, h2, rfl⟩ := memRead_ok hold
      cases h
      exact .inr ⟨hc, h1, h2, next, hnext, rfl⟩
    next => cases h
    next => cases h
  next hc =>
    cases h
    exact .inl ⟨by simpa using hc, rfl⟩

/-- Everything FRAC can do when it answers a next state (R70 to R73, R90). -/
theorem execFrac_cases {s t : State} (h : execFrac s = .next t) :
    (s.configured = false ∧ t = s.raise .noCounter) ∨
    (s.configured = true ∧ s.valid = true ∧ t = s.answer s.cnum s.cden) ∨
    (s.configured = true ∧ s.valid = false ∧ s.nwords.toNat ≤ Config.nwordsMax s.maxCapacity ∧
      ∃ sum : Count, sum.toNat = reduce s.words s.nwords.toNat ∧
        t = (s.fillMemo sum s.observed).answer sum s.observed) := by
  unfold execFrac at h
  split at h
  next hc =>
    split at h
    next hv => cases h; exact .inr (.inl ⟨hc, hv, rfl⟩)
    next hv =>
      unfold fracMiss at h
      split at h
      next => cases h
      next acc hacc =>
        obtain ⟨hn, rfl⟩ := reduceWords_ok hacc
        split at h
        next => cases h
        next sum hsum =>
          cases h
          exact .inr (.inr ⟨hc, by simpa using hv, hn, sum, (toCount_ok hsum).2, rfl⟩)
  next hc =>
    cases h
    exact .inl ⟨by simpa using hc, rfl⟩

/-- The two answers of FRAC (R71, R72, R73). -/
theorem State.answer_eq (s : State) (num den : Count) :
    (s.observed.toNat = 0 ∧ s.answer num den = s.respond .uninitialized 0 0) ∨
    (s.observed.toNat ≠ 0 ∧ s.answer num den = s.respond .ok num den) := by
  unfold State.answer
  split_ifs with h
  · exact .inl ⟨h, rfl⟩
  · exact .inr ⟨h, rfl⟩

/-! ### Running a command and a step -/

theorem runCommand_legal {w : CommandWord} {i : Instr} (h : decode w = .ok i) (s : State) :
    runCommand w s = exec i s := by
  simp only [runCommand, h]

theorem runCommand_illegal {w : CommandWord} {e : Illegal} (h : decode w = .error e) (s : State) :
    runCommand w s = .next s.illegalCommand := by
  simp only [runCommand, h]

/-- Everything a step can do (R13, R102, R107). -/
theorem step_cases {s t : State} (h : step s = .next t) :
    (s.inputs = [] ∧ t = s) ∨
    (∃ l rest, s.inputs = .reset l :: rest ∧ t = (s.withInputs rest).hardwareReset l) ∨
    (∃ w rest, s.inputs = .command w :: rest ∧ runCommand w (s.withInputs rest) = .next t) := by
  unfold step runNext at h
  split at h
  next he => cases h; exact .inl ⟨he, rfl⟩
  next e rest he =>
    cases e with
    | command w => exact .inr (.inr ⟨w, rest, he, h⟩)
    | reset l => cases h; exact .inr (.inl ⟨l, rest, he, rfl⟩)

theorem step_command {s : State} {w : CommandWord} {rest : List HostEvent} (h : s.inputs = .command w :: rest) :
    step s = runCommand w (s.withInputs rest) := by
  simp only [step, runNext, h, runEvent]

end Sys2Proof.Machine
end

