-- ==== Sys2Proof/Laws/PerInstr.lean ====
section
/-! SUPPORT. One fact per command, about its syntax: the word that encodes it carries the fixed bits of its row of the
opcode table and is a legal word, and its row is the only one it matches. -/

namespace Sys2Proof.Laws.Encoded

/-- The encoded word under the row's mask is the row's match (R52, R53, R54), and the word is legal (R58). -/
def Statement (i : Instr) : Prop :=
  encode i &&& tableMask i = tableMatch i ∧ legalWord (encode i) = true

theorem new (cap : Count) : Statement (.new cap) := by
  have h : encode (.new cap) &&& 0xF0000000#32 = 0x10000000#32 := by
    apply BitVec.eq_of_getLsbD_eq
    intro k hk
    simp only [encode, BitVec.getLsbD_and, BitVec.getLsbD_or, BitVec.getLsbD_setWidth]
    interval_cases k <;> simp
  exact ⟨h, by simp [legalWord, isNewWord, h]⟩

theorem record (v : Bool) : Statement (.record v) := by
  cases v <;> exact ⟨by decide, by decide⟩

theorem frac : Statement .frac := ⟨by decide, by decide⟩

end Sys2Proof.Laws.Encoded
end

