-- ==== Sys2Proof/Laws/Response.lean ====
section
/-! SUPPORT. The fields of a response word are what it was built from (R55). -/

namespace Sys2Proof.Machine

theorem responseWord_toNat (st : Status) (num den : Count) :
    (responseWord st num den).toNat = st.code.toNat * 2 ^ 60 + num.toNat * 2 ^ 28 + den.toNat := by
  have hn := num.isLt
  have hd := den.isLt
  have split : ∀ a b k : Nat, b < 2 ^ k → a <<< k ||| b = a * 2 ^ k + b := fun a b k h => by
    rw [← Nat.shiftLeft_add_eq_or_of_lt h, Nat.shiftLeft_eq]
  have h : (responseWord st num den).toNat =
      (st.code.toNat <<< 4 ||| (0#4).toNat) <<< 56 ||| (num.toNat <<< 28 ||| den.toNat) := by
    rw [responseWord, BitVec.toNat_append, BitVec.toNat_append, BitVec.toNat_append]
  rw [h, split _ _ _ hd, split _ _ 4 (by decide), split _ _ 56 (by omega)]
  simp only [BitVec.toNat_ofNat]
  omega

@[simp] theorem responseStatus_responseWord (st : Status) (num den : Count) :
    responseStatus (responseWord st num den) = st.code := by
  apply BitVec.eq_of_toNat_eq
  have := num.isLt
  have := den.isLt
  have := st.code.isLt
  rw [responseStatus, BitVec.extractLsb'_toNat, responseWord_toNat, Nat.shiftRight_eq_div_pow]
  omega

@[simp] theorem responseZero_responseWord (st : Status) (num den : Count) :
    responseZero (responseWord st num den) = 0 := by
  apply BitVec.eq_of_toNat_eq
  have := num.isLt
  have := den.isLt
  rw [responseZero, BitVec.extractLsb'_toNat, responseWord_toNat, Nat.shiftRight_eq_div_pow]
  simp only [BitVec.ofNat_eq_ofNat, BitVec.toNat_ofNat]
  omega

@[simp] theorem responseNum_responseWord (st : Status) (num den : Count) :
    responseNum (responseWord st num den) = num := by
  apply BitVec.eq_of_toNat_eq
  have := num.isLt
  have := den.isLt
  rw [responseNum, BitVec.extractLsb'_toNat, responseWord_toNat, Nat.shiftRight_eq_div_pow]
  omega

@[simp] theorem responseDen_responseWord (st : Status) (num den : Count) :
    responseDen (responseWord st num den) = den := by
  apply BitVec.eq_of_toNat_eq
  have := num.isLt
  have := den.isLt
  rw [responseDen, BitVec.extractLsb'_toNat, responseWord_toNat, Nat.shiftRight_eq_div_pow]
  omega

/-- A response of status OK is its pair. -/
theorem responseWord_ok (num den : Count) : responseWord .ok num den = pairWord num den := rfl

end Sys2Proof.Machine
end

