-- ==== Sys2Proof/Tests/Slice0.lean ====
section
/-! SUPPORT. Tests with expected results from the spec's worked examples (95_test_vectors.md) or by hand from its
encodings, and for each statement with hypotheses a named state and operands that meet them. -/

namespace Sys2Proof.Tests

open Sys2Proof.Machine

/-! ### Helpers -/

/-- The next state, where there is one. -/
def after (o : Host.Outcome State Fault Refusal) : Option State :=
  match o with
  | .next t => some t
  | .fault _ => none
  | .refused _ => none

/-- The fault, where there is one. -/
def faultOf (o : Host.Outcome State Fault Refusal) : Option Fault :=
  match o with
  | .next _ => none
  | .fault f => some f
  | .refused _ => none

/-- A default-size instance with a counter of capacity `cap` and the given cursor, count and words; the memo is stale. -/
def counter (cap cursor observed : Count) (words : Memory) : State :=
  { State.reset with
    configured := true, capacity := cap, nwords := nwordsOf cap, cursor := cursor, observed := observed,
    words := words }

/-- NEW 8 with no REC (section 2, state C0). -/
def c0 : State := counter 8 0 0 []
/-- NEW 8; REC 1 (section 2, state C1). -/
def ramp : State := counter 8 1 1 [(0, 0x8000000000000000#64)]
/-- Program P1 after step 4: the last slot is next. -/
def last4 : State := counter 4 3 3 [(0, 0xA000000000000000#64)]
/-- Program P1 after step 5: full. -/
def full4 : State := counter 4 0 4 [(0, 0xB000000000000000#64)]
/-- Program P1 after step 6: full and Fresh. -/
def fresh4 : State := { full4 with valid := true, cnum := 3, cden := 4 }
/-- Program P2 after step 2: nothing observed and Fresh. -/
def fresh0 : State := { c0 with valid := true }
/-- A counter of capacity 1 after one REC (program P4, step 9). -/
def full1 : State := counter 1 0 1 [(0, 0x8000000000000000#64)]
/-- The instance of program P6, right after reset. -/
def small : State := { State.reset with maxCapacity := 100 }

/-! ### Encoding: words written out from R52, R53, R54, R58 -/

-- 0001 and the 28 bits of 4
theorem test_decode_new : decode 0b00010000000000000000000000000100#32 = .ok (.new 4) := by decide
-- 0010, 27 zeros, v
theorem test_decode_rec_on : decode 0b00100000000000000000000000000001#32 = .ok (.record true) := by decide
theorem test_decode_rec_off : decode 0b00100000000000000000000000000000#32 = .ok (.record false) := by decide
-- 0011 and 28 zeros
theorem test_decode_frac : decode 0b00110000000000000000000000000000#32 = .ok .frac := by decide
theorem test_encode_new_largest : encode (.new 268435455) = 0x1FFFFFFF#32 := by decide
theorem test_table_words :
    decodeTableWord 32 0x10000000 = some (.new 0) ∧ decodeTableWord 32 0x20000000 = some (.record false) ∧
    decodeTableWord 32 0x30000000 = some .frac ∧ decodeTableWord 32 0x40000000 = none := by decide

/-! ### WellFormed: an ill-formed term for each check -/

theorem test_illformed_word_opcode : legalWord 0x00000000#32 = false ∧ legalWord 0x40000000#32 = false := by decide
theorem test_illformed_word_rec : legalWord 0x20000002#32 = false ∧ legalWord 0x20000001#32 = true := by decide
theorem test_illformed_word_frac : legalWord 0x30000001#32 = false ∧ legalWord 0x30000000#32 = true := by decide
theorem test_illformed_word_new : isNewWord 0x20000000#32 = false ∧ isNewWord 0x1FFFFFFF#32 = true := by decide
theorem test_illformed_instance : legalMaxCapacity 0 = false ∧ legalMaxCapacity 1 = true := by decide
theorem test_illformed_line_new : (TraceLine.newCap 268435456).wf = false := by decide
theorem test_illformed_line_word : (TraceLine.word 4294967296).wf = false := by decide
theorem test_illformed_memory :
    Memory.wf [(3, 1), (2, 1)] = false ∧ Memory.wf [(2, 0)] = false ∧ Memory.wf [(2, 1), (3, 1)] = true := by decide

/-! ### The commands: section 2, section 3 and the programs of section 6 -/

-- P1 step 1, over the counter of P6 step 3: words above the new counter keep their bits
theorem test_new_replaces :
    (after (exec (.new 4) (counter 130 0 130 [(0, 1), (2, 0xC000000000000000#64)]))).map
      (fun t => (t.nwords, t.observed, t.words)) = some (1, 0, [(2, 0xC000000000000000#64)]) := by decide
-- P6 step 1
theorem test_new_too_large : after (exec (.new 101) small) = some { small with responses := [0x4000000000000000#64] } := by
  decide
-- section 3: capacity 65, cursor 64
theorem test_rec_wraps :
    (after (exec (.record true) (counter 65 64 64 [(0, 0xFFFFFFFFFFFFFFFF#64)]))).map
      (fun t => (t.words, t.cursor, t.observed)) =
    some ([(0, 0xFFFFFFFFFFFFFFFF#64), (1, 0x8000000000000000#64)], 0, 65) := by decide
-- P1 step 7: overwrites the first "on", and the stale pair stays
theorem test_rec_overwrites :
    (after (exec (.record false) fresh4)).map (fun t => (t.words, t.cursor, t.observed, t.valid, t.cnum, t.cden)) =
    some ([(0, 0x3000000000000000#64)], 1, 4, false, 3, 4) := by decide
-- P1 step 6
theorem test_frac_counts :
    (after (exec .frac full4)).map (fun t => (t.responses, t.valid, t.cnum, t.cden)) =
    some ([0x0000000030000004#64], true, 3, 4) := by decide
-- P2 step 2
theorem test_frac_uninitialized :
    (after (exec .frac c0)).map (fun t => (t.responses, t.valid, t.cnum, t.cden)) =
    some ([0x2000000000000000#64], true, 0, 0) := by decide
-- P4 steps 1 and 7: decoding comes first
theorem test_status_priority :
    (after (step (State.reset.withFetchWord 32 0x30000001))).map (·.responses) = some [0x5000000000000000#64] ∧
    (after (step (State.reset.withFetchWord 32 0x30000000))).map (·.responses) = some [0x3000000000000000#64] := by
  decide

/-! ### The reducer: section 5 -/

-- 5.1, the row of 0x0123456789ABCDEF, stage by stage
theorem test_pc1_stages :
    let a := pairSums 0x0123456789ABCDEF#64
    let b := nibbleSums a
    let c := byteSums b
    a = 0x011245564556899A#64 ∧ b = 0x0112122312232334#64 ∧ c = 0x0103030503050507#64 ∧
    foldBytes c = 0x0104070C0F141920#64 ∧ pc1 0x0123456789ABCDEF#64 = 32 := by decide
-- 5.1, all ones: a final mask of 0x3F would give 0
theorem test_pc1_all_ones : pc1 0xFFFFFFFFFFFFFFFF#64 = 64 := by decide
-- 5.2, the third block
theorem test_pc4_stages :
    let p := mergePair 0x0123456789ABCDEF#64 0xFEDCBA9876543210#64
    let q := mergePair 0xAAAAAAAAAAAAAAAA#64 0x8000000000000001#64
    p = 0x4444444444444444#64 ∧ q = 0x3222222222222223#64 ∧
    mergeGroup p q = 0x0D0C0C0C0C0C0C0D#64 ∧ widenBytes (mergeGroup p q) = 0x0019001800180019#64 ∧
    foldHalves (widenBytes (mergeGroup p q)) = 0x0019003100490062#64 := by decide
-- 5.2, four all-ones words: the one result that needs the ninth bit
theorem test_pc4_all_ones :
    pc4 0xFFFFFFFFFFFFFFFF#64 0xFFFFFFFFFFFFFFFF#64 0xFFFFFFFFFFFFFFFF#64 0xFFFFFFFFFFFFFFFF#64 = 256 := by decide

/-- The pattern array of 5.3; word 5 is 0 and unlisted. -/
def pattern : Memory :=
  [(0, 0x0123456789ABCDEF#64), (1, 0xFEDCBA9876543210#64), (2, 0xAAAAAAAAAAAAAAAA#64), (3, 0x8000000000000001#64),
   (4, 0xFFFFFFFFFFFFFFFF#64), (6, 0x00000000000000FF#64), (7, 0xF0F0F0F0F0F0F0F0#64), (8, 0x0000000000000001#64),
   (9, 0x7FFFFFFFFFFFFFFF#64)]

-- 5.3, rows 1 to 10
theorem test_reduce_pattern :
    (List.range 10).map (fun n => reduce pattern (n + 1)) = [32, 64, 96, 98, 162, 162, 170, 202, 203, 266] := by decide

/-! ### Trace text and responses (R62, R63) -/

theorem test_trace_reads :
    assemble ["NEW 4 -- a counter".toList, "REC 1 x 2".toList, "RECS 0 1".toList, "record(off)".toList,
      "WORD 0x2000_0002".toList, "FRAC".toList] =
    some [0x10000004#32, 0x20000001#32, 0x20000001#32, 0x20000000#32, 0x20000001#32, 0x20000000#32, 0x20000002#32,
      0x30000000#32] := by decide
theorem test_trace_rejects :
    assembleLine "NEW 268435456".toList = none ∧ assembleLine "REC 2".toList = none ∧
    assembleLine "NOP".toList = none ∧ assembleLine "NEW _".toList = none ∧ assembleLine "WORD 0x_".toList = none ∧ assembleLine "new(0x10)".toList = some [0x10000010#32] := by decide
theorem test_render_response :
    renderResponse 0x0000000030000004#64 = some "-> OK 3/4" ∧
    renderResponse 0x1000000000000000#64 = some "-> InvalidCapacity" ∧ renderResponse 0x6000000000000000#64 = none := by
  decide

/-! ### The ports -/

/-- An edge with nothing offered. -/
def quiet : PortIn := { rst := false, cmdValid := false, cmdWord := 0, leftover := [], latency := 0, pause := 0 }
/-- An edge that offers FRAC, to complete one edge later and be ready two edges after its response edge. -/
def offerFrac : PortIn := { quiet with cmdValid := true, cmdWord := 0x30000000#32, latency := 1, pause := 1 }

-- accepted, one more cycle, the response of P1 step 6, gone
theorem test_port_response :
    ((match clockEdges { state := full4, phase := .ready } [offerFrac, quiet] with
      | .next c => some (c.rsp, c.cmdReady)
      | .fault _ => none
      | .refused _ => none) : Option (Option ResponseWord × Bool)) =
    some (some 0x0000000030000004#64, false) := by decide

/-! ### Witnesses: the invariants -/

theorem witness_inv_reset_small : Inv small :=
  ⟨by decide, by decide, by decide, by decide, by decide, by decide, by decide, by decide, by decide, by decide⟩
theorem witness_inv_c0 : Inv c0 :=
  ⟨by decide, by decide, by decide, by decide, by decide, by decide, by decide, by decide, by decide, by decide⟩
theorem witness_inv_ramp : Inv ramp :=
  ⟨by decide, by decide, by decide, by decide, by decide, by decide, by decide, by decide, by decide, by decide⟩
theorem witness_inv_last4 : Inv last4 :=
  ⟨by decide, by decide, by decide, by decide, by decide, by decide, by decide, by decide, by decide, by decide⟩
theorem witness_inv_full4 : Inv full4 :=
  ⟨by decide, by decide, by decide, by decide, by decide, by decide, by decide, by decide, by decide, by decide⟩
theorem witness_inv_fresh4 : Inv fresh4 :=
  ⟨by decide, by decide, by decide, by decide, by decide, by decide, by decide, by decide, by decide, by decide⟩
theorem witness_inv_fresh0 : Inv fresh0 :=
  ⟨by decide, by decide, by decide, by decide, by decide, by decide, by decide, by decide, by decide, by decide⟩
theorem witness_inv_full1 : Inv full1 :=
  ⟨by decide, by decide, by decide, by decide, by decide, by decide, by decide, by decide, by decide, by decide⟩

/-- The invariants do not look at the host's side. -/
theorem inv_offer {s : State} (h : Inv s) (w : CommandWord) : Inv (s.offer w) :=
  ⟨h.maxCapacity, h.wordsWf, h.wordsInside, h.unconfigured, h.capacity, h.nwords, h.ranges, h.rampUp, h.padding, h.memo⟩

/-- A next state there is. -/
theorem next_of_isSome {o : Host.Outcome State Fault Refusal} (h : (after o).isSome = true) : ∃ t, o = .next t := by
  cases o with
  | next t => exact ⟨t, rfl⟩
  | fault _ => cases h
  | refused _ => cases h

/-! ### Witnesses: encoding and the frame of the machine -/

theorem witness_RecWordsDecode :
    (0x20000002#32).extractLsb 31 28 = 0x2#4 ∧ (0x20000002#32).extractLsb 27 1 ≠ 0#27 := by decide
theorem witness_FracWordDecodes :
    (0x30000001#32).extractLsb 31 28 = 0x3#4 ∧ (0x30000001#32).extractLsb 27 0 ≠ 0#28 := by decide
theorem witness_IllegalWordsAnswered :
    (c0.offer 0x0FFFFFFF#32).inputs = [.command 0x0FFFFFFF#32] ∧ (0x0FFFFFFF#32).extractLsb 31 28 = 0x0#4 ∧
    4 ≤ ((0x40000000#32).extractLsb 31 28).toNat ∧ 4 ≤ ((0xFFFFFFFF#32).extractLsb 31 28).toNat ∧
    (0x20000002#32).extractLsb 27 1 ≠ 0#27 ∧ (0x30000001#32).extractLsb 27 0 ≠ 0#28 := by decide
/-- No clause of R58 holds of the highest word of NEW, the higher of REC and that of FRAC. -/
theorem witness_IllegalWordsAnswered_legal :
    ((0x1FFFFFFF#32).extractLsb 31 28 = 0x1#4) ∧
    ((0x20000001#32).extractLsb 31 28 = 0x2#4 ∧ (0x20000001#32).extractLsb 27 1 = 0#27) ∧
    ((0x30000000#32).extractLsb 31 28 = 0x3#4 ∧ (0x30000000#32).extractLsb 27 0 = 0#28) := by decide
theorem witness_TraceLinesExpand : (0 : Nat) ≤ 268435455 ∧ (268435455 : Nat) ≤ 268435455 := by decide
theorem witness_StepRunsDecodedCommand :
    (c0.offer 0x20000001#32).inputs = [.command 0x20000001#32] ∧ decode 0x20000001#32 = .ok (.record true) := by decide
theorem witness_OfferedWordRuns : decodeTableWord 32 0x10000004 = some (.new 4) := by decide
theorem witness_WaitingChangesNothing : full4.inputs = [] := by decide
theorem witness_ResetEventValues :
    ({ small with inputs := [.reset [(1, 7)]] } : State).inputs = [.reset [(1, 7)]] ∧ Memory.wf [(1, 7)] = true ∧
    Memory.inside (Config.nwordsMax small.maxCapacity) [(1, 7)] = true := by decide

/-! ### Witnesses: NEW and the bit addressing -/

theorem witness_NewCreatesCounter :
    (1 ≤ (1 : Count).toNat ∧ (1 : Count).toNat ≤ full4.maxCapacity.toNat) ∧
    (1 ≤ (100 : Count).toNat ∧ (100 : Count).toNat ≤ small.maxCapacity.toNat) := by decide
theorem witness_NewRefusesBadCapacity :
    small.maxCapacity.toNat < (101 : Count).toNat ∧ full4.maxCapacity = 268435455 := by decide
theorem witness_NewFrame : ∃ t, exec (.new 65) full4 = .next t := next_of_isSome (by decide)
theorem witness_SetSlotChangesOneBit :
    Memory.wf [(0, 0x8000000000000000#64)] = true ∧ bitAt [(0, 0x8000000000000000#64)] 0 = true ∧
    bitAt [(0, 0x8000000000000000#64)] 64 = false := by decide

/-! ### Witnesses: REC -/

theorem witness_RecRecordsObservation : Inv last4 ∧ last4.configured = true ∧ State.reset.configured = false :=
  ⟨witness_inv_last4, by decide, by decide⟩
theorem witness_RecRecordsObservation_illegal :
    (last4.offer 0x20000002#32).inputs = [.command 0x20000002#32] ∧ (0x20000002#32).extractLsb 31 28 = 0x2#4 ∧
    (0x20000002#32).extractLsb 27 1 ≠ 0#27 := by decide
theorem witness_RecRecordsObservation_one : Inv full1 ∧ full1.configured = true := ⟨witness_inv_full1, by decide⟩
theorem witness_RecFrame : fresh4.words.wf = true ∧ ∃ t, exec (.record true) fresh4 = .next t :=
  ⟨by decide, next_of_isSome (by decide)⟩
theorem witness_RecOverwritesAndWraps_ramp :
    Inv ramp ∧ ramp.configured = true ∧ ramp.observed.toNat < ramp.capacity.toNat ∧
    ramp.cursor.toNat + 1 ≠ ramp.capacity.toNat := ⟨witness_inv_ramp, by decide, by decide, by decide⟩
theorem witness_RecOverwritesAndWraps_wrap :
    Inv last4 ∧ last4.configured = true ∧ last4.cursor.toNat + 1 = last4.capacity.toNat :=
  ⟨witness_inv_last4, by decide, by decide⟩
theorem witness_RecOverwritesAndWraps_full : Inv full4 ∧ full4.configured = true ∧ full4.observed = full4.capacity :=
  ⟨witness_inv_full4, by decide, by decide⟩
theorem witness_NoCounterAnswered : State.reset.configured = false := by decide
/-- Each way REC can stop, in a state no run reaches. -/
theorem witness_RecStopsOutsideDomain :
    faultOf (exec (.record true) { full4 with cursor := 64 }) = some (.noSuchWord 1) ∧
    faultOf (exec (.record true) { full4 with cursor := 64, nwords := 2, maxCapacity := 64 }) = some (.noSuchWord 1) ∧
    faultOf (exec (.record true) { full4 with cursor := 268435455, nwords := 4194304 }) =
      some (.registerOverflow 268435456) := by decide

/-! ### Witnesses: FRAC -/

theorem witness_FracMissCountsAndFills : Inv full4 ∧ full4.configured = true ∧ full4.valid = false :=
  ⟨witness_inv_full4, by decide, by decide⟩
theorem witness_FracMissCountsAndFills_zero : Inv c0 ∧ c0.configured = true ∧ c0.valid = false ∧ c0.observed = 0 :=
  ⟨witness_inv_c0, by decide, by decide, by decide⟩
theorem witness_FracHitAnswersFromMemo : fresh4.configured = true ∧ fresh4.valid = true ∧ Inv fresh4 :=
  ⟨by decide, by decide, witness_inv_fresh4⟩
theorem witness_FracHitAnswersFromMemo_zero :
    fresh0.configured = true ∧ fresh0.valid = true ∧ Inv fresh0 ∧ fresh0.observed = 0 :=
  ⟨by decide, by decide, witness_inv_fresh0, by decide⟩
theorem witness_ZeroObservationsUninitialized : Inv c0 ∧ c0.configured = true ∧ c0.observed = 0 :=
  ⟨witness_inv_c0, by decide, by decide⟩
theorem witness_FracFrame : (∃ t, exec .frac full4 = .next t) ∧ (∃ t, exec .frac fresh4 = .next t) ∧ fresh4.valid = true ∧
    (∃ t, exec .frac State.reset = .next t) ∧ State.reset.configured = false :=
  ⟨next_of_isSome (by decide), next_of_isSome (by decide), by decide, next_of_isSome (by decide), by decide⟩
theorem witness_FracStopsOutsideDomain :
    faultOf (exec .frac { full4 with nwords := 2, maxCapacity := 64 }) = some (.noSuchWord 1) := by decide
theorem witness_ConsecutiveQueriesAgree : Inv full4 ∧ Inv small := ⟨witness_inv_full4, witness_inv_reset_small⟩
theorem witness_RecordForcesRecount : Inv fresh4 ∧ fresh4.configured = true := ⟨witness_inv_fresh4, by decide⟩
theorem witness_FractionInUnitInterval : Inv full4 ∧ Inv c0 := ⟨witness_inv_full4, witness_inv_c0⟩

/-- One state for each row of R75's table, with its event. -/
theorem witness_MemoTransitions :
    (Inv (fresh4.offer 0x10000008#32) ∧ decode 0x10000008#32 = .ok (.new 8) ∧ expectedStatus 0x10000008#32 fresh4 = .ok) ∧
    (decode 0x10000000#32 = .ok (.new 0) ∧ expectedStatus 0x10000000#32 fresh4 ≠ .ok) ∧
    (decode 0x20000001#32 = .ok (.record true) ∧ expectedStatus 0x20000001#32 fresh4 = .ok) ∧
    (decode 0x30000000#32 = .ok .frac ∧ expectedStatus 0x30000000#32 fresh4 = .ok ∧
      expectedStatus 0x30000000#32 c0 = .uninitialized) ∧
    (expectedStatus 0x30000000#32 small = .noCounter ∧ expectedStatus 0x30000001#32 fresh4 = .illegalCommand) :=
  ⟨⟨inv_offer witness_inv_fresh4 _, by decide, by decide⟩, by decide, by decide, by decide, by decide⟩
theorem witness_MemoTransitions_step :
    (∃ t, step (fresh4.offer 0x10000008#32) = .next t) ∧ (∃ t, step (fresh4.offer 0x20000001#32) = .next t) ∧
    (∃ t, step (full4.offer 0x30000000#32) = .next t) ∧
    ∃ t, step { fresh4 with inputs := [.reset []] } = .next t :=
  ⟨next_of_isSome (by decide), next_of_isSome (by decide), next_of_isSome (by decide), next_of_isSome (by decide)⟩

/-! ### Witnesses: the whole machine -/

theorem witness_StepKeepsInvariants : Inv (full4.offer 0x20000000#32) ∧ ∃ t, step (full4.offer 0x20000000#32) = .next t :=
  ⟨inv_offer witness_inv_full4 _, next_of_isSome (by decide)⟩
theorem witness_StepAlwaysAnswers : Inv (full4.offer 0x30000000#32) := inv_offer witness_inv_full4 _
theorem witness_TotalAtMostObserved : Inv ramp ∧ ramp.configured = true := ⟨witness_inv_ramp, by decide⟩
theorem witness_StatusOfEveryWord :
    Inv (ramp.offer 0x30000000#32) ∧ (ramp.offer 0x30000000#32).inputs = [.command 0x30000000#32] :=
  ⟨inv_offer witness_inv_ramp _, by decide⟩
theorem witness_OneResponsePerCommand :
    (∃ t, step (full4.offer 0xFFFFFFFF#32) = .next t) ∧ (full4.offer 0xFFFFFFFF#32).inputs = [.command 0xFFFFFFFF#32] ∧
    ∃ t, step full4 = .next t :=
  ⟨next_of_isSome (by decide), by decide, next_of_isSome (by decide)⟩
theorem witness_ResponseFields :
    Inv (full4.offer 0x30000000#32) ∧ (full4.offer 0x30000000#32).inputs = [.command 0x30000000#32] ∧
    decode 0x30000000#32 = .ok .frac ∧ decode 0x10000004#32 ≠ .ok .frac :=
  ⟨inv_offer witness_inv_full4 _, by decide, by decide, by decide⟩
/-- One word for each of the four statuses that write nothing. -/
theorem witness_ErrorsWriteNothing :
    ((after (step (fresh4.offer 0x10000000#32))).map (·.responses.map responseStatus)) = some [1] ∧
    ((after (step (small.offer 0x20000001#32))).map (·.responses.map responseStatus)) = some [3] ∧
    ((after (step (small.offer 0x10000065#32))).map (·.responses.map responseStatus)) = some [4] ∧
    ((after (step (fresh4.offer 0x00000000#32))).map (·.responses.map responseStatus)) = some [5] := by decide
theorem witness_CounterLifetime :
    (∃ t, step (fresh4.offer 0x10000008#32) = .next t) ∧ fresh4.configured = true ∧
    (after (step (small.offer 0x10000008#32))).map (·.configured) = some true ∧ small.configured = false :=
  ⟨next_of_isSome (by decide), by decide, by decide, by decide⟩
theorem witness_MaxCapacityFixed : ∃ t, step (small.offer 0x10000064#32) = .next t := next_of_isSome (by decide)
theorem witness_ObservedNeverDecreases :
    Inv (ramp.offer 0x20000000#32) ∧ (ramp.offer 0x20000000#32).inputs = [.command 0x20000000#32] ∧
    ∃ t, step (ramp.offer 0x20000000#32) = .next t :=
  ⟨inv_offer witness_inv_ramp _, by decide, next_of_isSome (by decide)⟩

/-- The history of program P1 up to step 5. -/
theorem witness_reflects_full4 : Reflects [true, false, true, true] full4 :=
  ⟨by decide, by decide, by decide, by decide⟩
/-- A history longer than the capacity: the state of program P1 after step 7. -/
theorem witness_reflects_turned :
    Reflects [true, false, true, true, false] (counter 4 1 4 [(0, 0x3000000000000000#64)]) :=
  ⟨by decide, by decide, by decide, by decide⟩
theorem witness_StepExtendsHistory :
    Inv (full4.offer 0x20000000#32) ∧ (full4.offer 0x20000000#32).configured = true ∧
    Reflects [true, false, true, true] (full4.offer 0x20000000#32) ∧
    (full4.offer 0x20000000#32).inputs = [.command 0x20000000#32] ∧
    (∃ t, step (full4.offer 0x20000000#32) = .next t) ∧
    decode 0x20000000#32 = .ok (.record false) ∧ expectedStatus 0x10000003#32 full4 = .ok ∧
    expectedStatus 0x10000000#32 full4 ≠ .ok :=
  ⟨inv_offer witness_inv_full4 _, by decide, ⟨by decide, by decide, by decide, by decide⟩, by decide,
    next_of_isSome (by decide), by decide, by decide, by decide⟩
theorem witness_FracAnswersWindow :
    Inv full4 ∧ full4.configured = true ∧ Reflects [true, false, true, true] full4 ∧ [true, false, true, true] ≠ [] :=
  ⟨witness_inv_full4, by decide, witness_reflects_full4, by decide⟩
/-- Two states that differ in a word outside the counter and in what a later reset leaves. -/
theorem witness_OutsideWordsNeverRead :
    let s := full4.withInputs [.command 0x30000000#32, .reset []]
    let t : State := { full4 with
      words := [(0, 0xB000000000000000#64), (1, 5)], inputs := [.command 0x30000000#32, .reset [(0, 9)]] }
    Inv s ∧ Inv t ∧ SameCounter s t ∧ s ≠ t :=
  ⟨⟨by decide, by decide, by decide, by decide, by decide, by decide, by decide, by decide, by decide, by decide⟩,
    ⟨by decide, by decide, by decide, by decide, by decide, by decide, by decide, by decide, by decide, by decide⟩,
    ⟨by decide, by decide, by decide, by decide, by decide, by decide, by decide, by decide, by decide, by decide,
      by decide, by decide⟩, by decide⟩

/-! ### Witnesses: the ports -/

theorem witness_ResetEdgeWins : ({ quiet with rst := true } : PortIn).rst = true := by decide
theorem witness_ResponseLastsOneCycle :
    ({ state := { full4 with responses := [0x0000000030000004#64] }, phase := .responding 1 } : Clocked).rsp ≠ none ∧
    clockEdge { state := { full4 with responses := [0x0000000030000004#64] }, phase := .responding 1 } quiet =
      .next { state := { full4 with responses := [0x0000000030000004#64] }, phase := .recovering 0 } :=
  ⟨by decide, rfl⟩
theorem witness_NotReadyIgnoresOffer :
    ({ state := full4, phase := .busy 0x30000000#32 0 0 } : Clocked).cmdReady = false ∧ quiet.rst = false := by decide
theorem witness_HandshakeRefinesStep :
    (∃ t, step { full4 with inputs := .command 0x30000000#32 :: full4.inputs } = .next t) ∧
    offerFrac.rst = false ∧ offerFrac.cmdValid = true ∧ offerFrac.cmdWord = 0x30000000#32 ∧
    (∀ i ∈ [quiet, quiet], i.rst = false) ∧ [quiet].length = offerFrac.latency ∧
    [quiet, quiet].length = offerFrac.pause + 1 :=
  ⟨next_of_isSome (by decide), by decide, by decide, by decide, by decide, by decide, by decide⟩

end Sys2Proof.Tests
end

section
/-! The lanes of the SWAR reducer (R76 to R83): what adding, shifting and masking do to the lanes of a word, what each
stage's lanes hold, and from them that `PC1`, `PC4` and `REDUCE` count the set bits. -/

namespace Sys2Proof.Machine

/-! ### The lanes of a word -/

theorem lane_lt (x : Word) (len k : Nat) : lane x len k < 2 ^ len := Nat.mod_lt _ (by positivity)

/-- There is no lane above bit 63. -/
theorem lane_of_le {x : Word} {len k : Nat} (h : 64 ≤ len * k) : lane x len k = 0 := by
  rw [lane, Nat.div_eq_of_lt (x.isLt.trans_le (Nat.pow_le_pow_right two_pos h)), Nat.zero_mod]

/-- A shift by `c` lanes moves every lane down by `c`. -/
theorem lane_ushiftRight (x : Word) {len c s : Nat} (hs : s = len * c) (k : Nat) :
    lane (x >>> s) len k = lane x len (k + c) := by
  rw [lane, lane, BitVec.toNat_ushiftRight, Nat.shiftRight_eq_div_pow, Nat.div_div_eq_div_mul, ← pow_add, hs, Nat.add_comm,
    ← Nat.mul_add]

/-- Lanes whose sums fit their width do not carry into each other: below every lane the sum of the low parts fits. -/
theorem low_add_lt {x y : Word} {len : Nat} (h : ∀ j, lane x len j + lane y len j < 2 ^ len) (k : Nat) :
    x.toNat % 2 ^ (len * k) + y.toNat % 2 ^ (len * k) < 2 ^ (len * k) := by
  induction k with
  | zero => simp [Nat.mod_one]
  | succ k ih =>
    have hk : 2 ^ (len * k) * (lane x len k + lane y len k + 1) ≤ 2 ^ (len * k) * 2 ^ len :=
      Nat.mul_le_mul_left _ (h k)
    rw [Nat.mul_succ, pow_add, Nat.mod_mul, Nat.mod_mul]
    simp only [lane, Nat.mul_add] at hk
    omega

/-- Addition lane by lane, where every lane's sum fits its width. -/
theorem lane_add {x y : Word} {len : Nat} (hlen : len ∣ 64) (h : ∀ j, lane x len j + lane y len j < 2 ^ len) (k : Nat) :
    lane (x + y) len k = lane x len k + lane y len k := by
  obtain ⟨n, hn⟩ := hlen
  have hfit : x.toNat + y.toNat < 2 ^ 64 := by
    have := low_add_lt h n
    rwa [← hn, Nat.mod_eq_of_lt x.isLt, Nat.mod_eq_of_lt y.isLt] at this
  have hsum := h k
  simp only [lane] at hsum ⊢
  rw [BitVec.toNat_add, Nat.mod_eq_of_lt hfit, Nat.add_div_eq_of_add_mod_lt (low_add_lt h k), Nat.add_mod,
    Nat.mod_eq_of_lt hsum]

/-- A word added to itself shifted by `c` lanes: each lane gains the lane `c` above it. -/
theorem lane_add_ushiftRight {x : Word} {len c s b : Nat} (hlen : len ∣ 64) (hs : s = len * c)
    (hb : ∀ j, lane x len j ≤ b) (hfit : b + b < 2 ^ len) (k : Nat) :
    lane (x + x >>> s) len k = lane x len k + lane x len (k + c) := by
  rw [lane_add hlen, lane_ushiftRight x hs]
  intro j
  rw [lane_ushiftRight x hs]
  exact (Nat.add_le_add (hb j) (hb (j + c))).trans_lt hfit

/-- `M` has the low half of each lane of width `2 * L` set and the high half clear, as the masks of R76. -/
def LowHalves (M : Word) (L : Nat) : Prop := ∃ n, 2 * L * n = 64 ∧ ∀ k, k < n → lane M (2 * L) k = 2 ^ L - 1

theorem lowHalves_m1 : LowHalves m1 1 := ⟨32, by decide⟩
theorem lowHalves_m2 : LowHalves m2 2 := ⟨16, by decide⟩
theorem lowHalves_m4 : LowHalves m4 4 := ⟨8, by decide⟩
theorem lowHalves_m8 : LowHalves m8 8 := ⟨4, by decide⟩

/-- Masking the low halves keeps, in each wide lane, its lower narrow lane. -/
theorem lane_and_lowHalves {M : Word} {L : Nat} (hM : LowHalves M L) (x : Word) (k : Nat) :
    lane (x &&& M) (2 * L) k = lane x L (2 * k) := by
  obtain ⟨n, hn, hmask⟩ := hM
  rcases Nat.lt_or_ge k n with hk | hk
  · have hand : lane (x &&& M) (2 * L) k = lane x (2 * L) k &&& lane M (2 * L) k := by
      simp only [lane, BitVec.toNat_and, Nat.and_div_two_pow, Nat.and_mod_two_pow]
    rw [hand, hmask k hk, Nat.and_two_pow_sub_one_eq_mod, lane, lane,
      Nat.mod_mod_of_dvd _ (pow_dvd_pow 2 (by omega)), Nat.mul_assoc, Nat.mul_left_comm]
  · have : 2 * L * n ≤ 2 * L * k := Nat.mul_le_mul_left _ hk
    rw [lane_of_le (by omega), lane_of_le (by rw [Nat.mul_left_comm, ← Nat.mul_assoc]; omega)]

/-- The widening step `(x & M) + ((x >> L) & M)` sums neighbouring lanes of width `L` into lanes of width `2 * L`. -/
theorem lane_widen {M : Word} {L : Nat} (hM : LowHalves M L) (x : Word) (k : Nat) :
    lane ((x &&& M) + ((x >>> L) &&& M)) (2 * L) k = lane x L (2 * k) + lane x L (2 * k + 1) := by
  have ⟨n, hn, _⟩ := hM
  have hlow := lane_and_lowHalves hM x
  have hhigh (j : Nat) : lane (x >>> L &&& M) (2 * L) j = lane x L (2 * j + 1) := by
    rw [lane_and_lowHalves hM, lane_ushiftRight x (Nat.mul_one L).symm]
  rw [lane_add ⟨n, hn.symm⟩, hlow, hhigh]
  intro j
  have hL : 1 ≤ L := by
    rcases Nat.eq_zero_or_pos L with rfl | h
    · simp at hn
    · exact h
  have hpow : 2 * 2 ^ L ≤ 2 ^ (2 * L) := by
    rw [← pow_succ']; exact Nat.pow_le_pow_right two_pos (by omega)
  have := lane_lt x L (2 * j)
  have := lane_lt x L (2 * j + 1)
  rw [hlow, hhigh]
  omega

/-! ### The set bits of a range -/

theorem bitsIn_add (w : Word) (lo a b : Nat) : bitsIn w lo (a + b) = bitsIn w lo a + bitsIn w (lo + a) b := by
  simp only [bitsIn, List.range_add, List.countP_append, List.countP_map, Function.comp_def, Nat.add_assoc]

theorem bitsIn_le (w : Word) (lo len : Nat) : bitsIn w lo len ≤ len :=
  List.countP_le_length.trans_eq (List.length_range)

/-- The set bits of a wide lane are those of its two halves. -/
theorem bitsIn_halves (w : Word) (L k : Nat) :
    bitsIn w (2 * L * k) (2 * L) = bitsIn w (L * (2 * k)) L + bitsIn w (L * (2 * k + 1)) L := by
  rw [Nat.two_mul L, bitsIn_add, Nat.mul_succ, ← Nat.two_mul, Nat.mul_comm 2 L, Nat.mul_assoc]

theorem popcount_eq_bitsIn (w : Word) : popcount w = bitsIn w 0 64 := by
  simp only [popcount, bitsIn, Nat.zero_add]

/-- A one-bit lane is its bit. -/
theorem lane_one (w : Word) (k : Nat) : lane w 1 k = bitsIn w k 1 := by
  have hbit : (w.toNat.testBit k).toNat = w.toNat / 2 ^ k % 2 := Nat.toNat_testBit _ _
  cases h : w.toNat.testBit k <;> simp [lane, bitsIn, BitVec.getLsbD, h, ← hbit]

/-! ### The stages of PC1 and PC4 (R77, R79) -/

/-- The bits inside and outside a mask add up to the word. -/
theorem and_add_and_not (w m : Word) : (w &&& m) + (w &&& ~~~m) = w := by
  have hdisj : (w &&& m) &&& (w &&& ~~~m) = 0#64 := by
    ext k
    cases h : m[k] <;> simp [h]
  rw [BitVec.add_eq_or_of_and_eq_zero _ _ hdisj, ← BitVec.and_or_distrib_left, BitVec.or_not_self, BitVec.and_allOnes]

/-- The odd bits of a word, moved down and doubled, are the bits outside `m1`. -/
theorem odd_bits_doubled (w : Word) : ((w >>> 1) &&& m1) + ((w >>> 1) &&& m1) = w &&& ~~~m1 :=
  calc ((w >>> 1) &&& m1) + ((w >>> 1) &&& m1)
    _ = ((w >>> 1) &&& m1) <<< 1 := by rw [BitVec.shiftLeft_eq_mul_twoPow]; exact BitVec.mul_two.symm
    _ = w &&& (BitVec.allOnes 64 <<< 1 &&& m1 <<< 1) := by
      rw [BitVec.shiftLeft_and_distrib, BitVec.shiftLeft_ushiftRight, BitVec.and_assoc]
    _ = w &&& ~~~m1 := by congr 1

/-- A word is its even bits plus twice its odd bits moved down; so stage `a` is a widening step (R78). -/
theorem pairSums_eq (w : Word) : pairSums w = (w &&& m1) + ((w >>> 1) &&& m1) := by
  rw [pairSums, BitVec.sub_eq_iff_eq_add, BitVec.add_assoc, odd_bits_doubled, and_add_and_not]

theorem lane_pairSums (w : Word) (k : Nat) : lane (pairSums w) 2 k = bitsIn w (2 * k) 2 := by
  rw [pairSums_eq, lane_widen lowHalves_m1 w k, lane_one, lane_one, ← bitsIn_add]

theorem lane_nibbleSums (w : Word) (k : Nat) : lane (nibbleSums (pairSums w)) 4 k = bitsIn w (4 * k) 4 := by
  rw [nibbleSums, lane_widen lowHalves_m2, lane_pairSums, lane_pairSums]
  exact (bitsIn_halves w 2 k).symm

theorem lane_byteSums (w : Word) (k : Nat) :
    lane (byteSums (nibbleSums (pairSums w))) 8 k = bitsIn w (8 * k) 8 := by
  rw [byteSums, lane_and_lowHalves lowHalves_m4,
    lane_add_ushiftRight (len := 4) (c := 1) (b := 4) (by decide) rfl _ (by decide), lane_nibbleSums, lane_nibbleSums]
  · exact (bitsIn_halves w 4 k).symm
  · intro j
    exact (lane_nibbleSums w j).trans_le (bitsIn_le w _ 4)

/-- Stages `d`, `e`, `f` sum the eight byte lanes into lane 0, when no sum passes a byte. -/
theorem lane_foldBytes {c : Word} (h : ∀ j, lane c 8 j ≤ 8) :
    lane (foldBytes c) 8 0 = lane c 8 0 + lane c 8 1 + lane c 8 2 + lane c 8 3 + lane c 8 4 + lane c 8 5 + lane c 8 6 +
      lane c 8 7 := by
  have hd := lane_add_ushiftRight (c := 1) (by decide) rfl h (by decide)
  have hd' (j : Nat) : lane (c + c >>> 8) 8 j ≤ 16 := (hd j).trans_le (Nat.add_le_add (h _) (h _))
  have he := lane_add_ushiftRight (c := 2) (s := 16) (by decide) rfl hd' (by decide)
  have hf := lane_add_ushiftRight (c := 4) (s := 32) (b := 32) (by decide) rfl
    (fun j => (he j).trans_le (Nat.add_le_add (hd' _) (hd' _))) (by decide) 0
  rw [foldBytes, hf, he, he, hd, hd, hd, hd]
  simp only [Nat.reduceAdd, Nat.add_assoc]

theorem lane_mergePair (w w' : Word) (k : Nat) :
    lane (mergePair w w') 4 k = bitsIn w (4 * k) 4 + bitsIn w' (4 * k) 4 := by
  rw [mergePair, lane_add (by decide), lane_nibbleSums, lane_nibbleSums]
  intro j
  rw [lane_nibbleSums, lane_nibbleSums]
  exact (Nat.add_le_add (bitsIn_le w _ 4) (bitsIn_le w' _ 4)).trans_lt (by decide)

theorem lane_widenNibbles_mergePair (w w' : Word) (k : Nat) :
    lane (widenNibbles (mergePair w w')) 8 k = bitsIn w (8 * k) 8 + bitsIn w' (8 * k) 8 := by
  rw [widenNibbles, lane_widen lowHalves_m4, lane_mergePair, lane_mergePair, bitsIn_halves w 4, bitsIn_halves w' 4]
  omega

theorem lane_mergeGroup (w w' w2 w3 : Word) (k : Nat) :
    lane (mergeGroup (mergePair w w') (mergePair w2 w3)) 8 k =
      bitsIn w (8 * k) 8 + bitsIn w' (8 * k) 8 + bitsIn w2 (8 * k) 8 + bitsIn w3 (8 * k) 8 := by
  have hpair := lane_widenNibbles_mergePair
  rw [mergeGroup, lane_add (by decide), hpair, hpair, Nat.add_assoc _ (bitsIn w2 _ _)]
  intro j
  have hle (v v' : Word) : lane (widenNibbles (mergePair v v')) 8 j ≤ 8 + 8 :=
    (hpair v v' j).trans_le (Nat.add_le_add (bitsIn_le v _ 8) (bitsIn_le v' _ 8))
  exact (Nat.add_le_add (hle w w') (hle w2 w3)).trans_lt (by decide)

theorem lane_widenBytes_mergeGroup (w w' w2 w3 : Word) (k : Nat) :
    lane (widenBytes (mergeGroup (mergePair w w') (mergePair w2 w3))) 16 k =
      bitsIn w (16 * k) 16 + bitsIn w' (16 * k) 16 + bitsIn w2 (16 * k) 16 + bitsIn w3 (16 * k) 16 := by
  rw [widenBytes, lane_widen lowHalves_m8, lane_mergeGroup, lane_mergeGroup, bitsIn_halves w 8, bitsIn_halves w' 8,
    bitsIn_halves w2 8, bitsIn_halves w3 8]
  omega

/-- Stages `h2`, `h3` sum the four 16-bit lanes into lane 0, when no sum passes 16 bits. -/
theorem lane_foldHalves {h : Word} (hle : ∀ j, lane h 16 j ≤ 64) :
    lane (foldHalves h) 16 0 = lane h 16 0 + lane h 16 1 + lane h 16 2 + lane h 16 3 := by
  have h2 := lane_add_ushiftRight (c := 1) (s := 16) (by decide) rfl hle (by decide)
  have h3 := lane_add_ushiftRight (c := 2) (s := 32) (b := 128) (by decide) rfl
    (fun j => (h2 j).trans_le (Nat.add_le_add (hle _) (hle _))) (by decide) 0
  rw [foldHalves, h3, h2, h2]
  simp only [Nat.reduceAdd, Nat.add_assoc]

/-! ### The counters (R78, R80) -/

/-- R83's row of `f`: lane 0 holds the count of the whole word. -/
theorem lane_foldBytes_byteSums (w : Word) :
    lane (foldBytes (byteSums (nibbleSums (pairSums w)))) 8 0 = bitsIn w 0 64 := by
  have hle (j : Nat) : lane (byteSums (nibbleSums (pairSums w))) 8 j ≤ 8 :=
    (lane_byteSums w j).trans_le (bitsIn_le w _ 8)
  rw [lane_foldBytes hle]
  simp only [lane_byteSums, Nat.reduceMul]
  iterate 7 rw [← bitsIn_add]

/-- R83's row of `h3`: lane 0 holds the count of all four words. -/
theorem lane_foldHalves_widenBytes (w w' w2 w3 : Word) :
    lane (foldHalves (widenBytes (mergeGroup (mergePair w w') (mergePair w2 w3)))) 16 0 =
      bitsIn w 0 64 + bitsIn w' 0 64 + bitsIn w2 0 64 + bitsIn w3 0 64 := by
  have hle (j : Nat) : lane (widenBytes (mergeGroup (mergePair w w') (mergePair w2 w3))) 16 j ≤ 16 + 16 + 16 + 16 := by
    rw [lane_widenBytes_mergeGroup]
    gcongr <;> exact bitsIn_le _ _ _
  have hsplit (v : Word) : bitsIn v 0 64 = bitsIn v 0 16 + bitsIn v 16 16 + bitsIn v 32 16 + bitsIn v 48 16 := by
    iterate 3 rw [← bitsIn_add]
  rw [lane_foldHalves hle]
  simp only [lane_widenBytes_mergeGroup, Nat.reduceMul, hsplit]
  omega

/-- The final mask of a counter loses nothing of a lane-0 sum that fits it. -/
theorem and_mask_toNat {x f : Word} {a len : Nat} (hf : f.toNat = 2 ^ a - 1) (ha : a ≤ len) (hfit : lane x len 0 < 2 ^ a) :
    (x &&& f).toNat = lane x len 0 := by
  rw [BitVec.toNat_and, hf, Nat.and_two_pow_sub_one_eq_mod, ← Nat.mod_eq_of_lt hfit, lane, Nat.mul_zero, pow_zero,
    Nat.div_one, Nat.mod_mod_of_dvd _ (pow_dvd_pow 2 ha)]

/-- `PC1` is exact (R78). -/
theorem pc1_eq_popcount (w : Word) : pc1 w = popcount w := by
  have hlane := lane_foldBytes_byteSums w
  have hle := bitsIn_le w 0 64
  rw [pc1, and_mask_toNat (a := 7) (len := 8) rfl (by decide) (by omega), hlane, popcount_eq_bitsIn]

/-- `PC4` is exact (R80). -/
theorem pc4_eq_popcount (w0 w1 w2 w3 : Word) :
    pc4 w0 w1 w2 w3 = popcount w0 + popcount w1 + popcount w2 + popcount w3 := by
  have hlane := lane_foldHalves_widenBytes w0 w1 w2 w3
  have hle (v : Word) := bitsIn_le v 0 64
  have := hle w0
  have := hle w1
  have := hle w2
  have := hle w3
  rw [pc4, and_mask_toNat (a := 9) (len := 16) rfl (by decide) (by omega), hlane]
  simp only [popcount_eq_bitsIn]

/-! ### The whole array (R81, R82) -/

theorem reduceGroups_eq_total (m : Memory) (g : Nat) : reduceGroups m g = total m (4 * g) := by
  induction g with
  | zero => rfl
  | succ g ih => rw [reduceGroups, ih, pc4_eq_popcount]; simp only [Nat.mul_succ, total]; omega

theorem total_add_reduceTail (m : Memory) (start k : Nat) : total m start + reduceTail m start k = total m (start + k) := by
  induction k with
  | zero => rfl
  | succ k ih => rw [reduceTail, pc1_eq_popcount, ← Nat.add_assoc, ih]; rfl

/-- `REDUCE` counts the set bits of its words, whatever their number (R82). -/
theorem reduce_eq_total (m : Memory) (n : Nat) : reduce m n = total m n := by
  have hg : 4 * (n >>> 2) ≤ n := by rw [Nat.shiftRight_eq_div_pow]; omega
  simp only [reduce, reduceGroups_eq_total, total_add_reduceTail, Nat.add_sub_cancel' hg]

end Sys2Proof.Machine
end

section
/-! `TOTAL` as a count of positions, exactly when an operation or a command faults, that no command faults under the
invariants, and that no command changes the instance. -/

namespace Sys2Proof.Machine

/-! ### Bits and counts -/

/-- The word index of a position is its quotient by the word size (R37, R39). -/
theorem widx_eq (p : Count) : widx p = p.toNat / 64 := by
  have := p.isLt
  rw [widx, BitVec.extractLsb'_toNat, Nat.shiftRight_eq_div_pow, Nat.mod_eq_of_lt (by omega)]

/-- The order in which positions read a word, from the most significant bit down, does not matter to its count (R41). -/
theorem popcount_eq_countP_down (v : Word) : popcount v = (List.range 64).countP fun k => v.getLsbD (63 - k) := by
  have hrev : (List.range 64).reverse = (List.range 64).map (63 - ·) := by decide
  rw [popcount, ← List.countP_reverse, hrev, List.countP_map]
  rfl

/-- `TOTAL` counts the positions whose bit is set. -/
theorem total_eq_countP (m : Memory) (n : Nat) : total m n = (List.range (64 * n)).countP (bitAt m) := by
  induction n with
  | zero => rfl
  | succ n ih =>
    rw [total, ih, popcount_eq_countP_down, Nat.mul_succ, List.range_add, List.countP_append, List.countP_map]
    congr 1
    refine List.countP_congr fun k hk => ?_
    have hk : k < 64 := List.mem_range.mp hk
    have hword : (64 * n + k) / 64 = n := by omega
    have hslot : (64 * n + k) % 64 = k := by omega
    rw [Function.comp_apply, bitAt, hword, hslot]

/-- Where no position from `k` up holds a set bit there are at most `k` set bits. -/
theorem total_le_of_bitAt_false {m : Memory} {n k : Nat} (h : ∀ p, p < 64 * n → k ≤ p → bitAt m p = false) :
    total m n ≤ k := by
  rw [total_eq_countP]
  rcases Nat.le_total (64 * n) k with hk | hk
  · exact List.countP_le_length.trans (List.length_range.trans_le hk)
  · obtain ⟨r, hr⟩ := Nat.exists_eq_add_of_le hk
    have hzero : (List.range r).countP (bitAt m ∘ (k + ·)) = 0 := by
      refine List.countP_eq_zero.mpr fun i hi => ?_
      have := List.mem_range.mp hi
      simp [h (k + i) (by omega) (by omega)]
    rw [hr, List.range_add, List.countP_append, List.countP_map, hzero]
    exact List.countP_le_length.trans List.length_range.le

/-! ### When an operation faults -/

theorem memRead_error_iff {s : State} {i : Nat} :
    (∃ f, memRead s i = .error f) ↔ s.nwords.toNat ≤ i ∨ Config.nwordsMax s.maxCapacity ≤ i := by
  unfold memRead
  split_ifs with h
  · simp; omega
  · simp; omega

theorem toCount_error_iff {n : Nat} : (∃ f, toCount n = .error f) ↔ 2 ^ 28 ≤ n := by
  unfold toCount
  split_ifs with h
  · simp; omega
  · simp; omega

/-- The cursor has no next position only at the top of its register: no capacity is above it, so it cannot wrap. -/
theorem nextCursor_error_iff {capacity p : Count} :
    (∃ f, nextCursor capacity p = .error f) ↔ p.toNat + 1 = 2 ^ 28 := by
  have hp := p.isLt
  have hcap := capacity.isLt
  by_cases h : p.toNat + 1 = capacity.toNat
  · simp [nextCursor_wrap h]; omega
  · rw [nextCursor, if_neg h, toCount_error_iff]; omega

theorem reduceWords_error_iff {s : State} :
    (∃ f, reduceWords s = .error f) ↔ Config.nwordsMax s.maxCapacity < s.nwords.toNat := by
  unfold reduceWords
  split_ifs with h
  · simp; omega
  · simp; omega

theorem execRecord_fault_iff {v : Bool} {s : State} :
    (∃ f, execRecord v s = .fault f) ↔ s.configured = true ∧
      ((∃ f, memRead s (widx s.cursor) = .error f) ∨ ∃ f, nextCursor s.capacity s.cursor = .error f) := by
  cases hc : s.configured with
  | false => simp [execRecord, hc]
  | true =>
    cases hr : memRead s (widx s.cursor) with
    | error f => simp [execRecord, hc, hr]
    | ok old => cases hn : nextCursor s.capacity s.cursor <;> simp [execRecord, hc, hr, hn]

/-- A miss faults where it may not read its words, or where their count does not fit. -/
theorem fracMiss_fault_iff {s : State} :
    (∃ f, fracMiss s = .fault f) ↔ Config.nwordsMax s.maxCapacity < s.nwords.toNat ∨ 2 ^ 28 ≤ s.total := by
  rw [← reduceWords_error_iff]
  cases hr : reduceWords s with
  | error f => simp [fracMiss, hr]
  | ok acc =>
    obtain ⟨-, rfl⟩ := reduceWords_ok hr
    rw [State.total, ← reduce_eq_total, ← toCount_error_iff]
    cases hn : toCount (reduce s.words s.nwords.toNat) <;> simp [fracMiss, hr, hn]

theorem execFrac_fault_iff {s : State} :
    (∃ f, execFrac s = .fault f) ↔ s.configured = true ∧ s.valid = false ∧ ∃ f, fracMiss s = .fault f := by
  cases hc : s.configured <;> cases hv : s.valid <;> simp [execFrac, fracHit, hc, hv]

theorem execNew_ne_fault (cap : Count) (s : State) (f : Fault) : execNew cap s ≠ .fault f := by
  unfold execNew
  split_ifs <;> simp

/-! ### Every command answers -/

theorem execRecord_ne_refused (v : Bool) (s : State) (r : Refusal) : execRecord v s ≠ .refused r := by
  unfold execRecord
  split_ifs
  · split <;> simp
  · simp

theorem fracMiss_ne_refused (s : State) (r : Refusal) : fracMiss s ≠ .refused r := by
  unfold fracMiss
  split
  · simp
  · split <;> simp

theorem execFrac_ne_refused (s : State) (r : Refusal) : execFrac s ≠ .refused r := by
  unfold execFrac
  split_ifs
  · simp [fracHit]
  · exact fracMiss_ne_refused s r
  · simp

theorem execNew_ne_refused (cap : Count) (s : State) (r : Refusal) : execNew cap s ≠ .refused r := by
  unfold execNew
  split_ifs <;> simp

theorem exec_ne_refused (i : Instr) (s : State) (r : Refusal) : exec i s ≠ .refused r := by
  cases i with
  | new cap => exact execNew_ne_refused cap s r
  | record v => exact execRecord_ne_refused v s r
  | frac => exact execFrac_ne_refused s r

/-- A command that does not fault answers a next state. -/
theorem exec_next_of_no_fault {i : Instr} {s : State} (h : ¬ ∃ f, exec i s = .fault f) : ∃ t, exec i s = .next t := by
  cases he : exec i s with
  | next t => exact ⟨t, rfl⟩
  | fault f => exact absurd ⟨f, he⟩ h
  | refused r => exact absurd he (exec_ne_refused i s r)

/-! ### Under the invariants no command faults (R86) -/

section
variable {s : State} (h : Inv s)
include h

/-- The invariants do not look at the host's events. -/
theorem Inv.withInputs (es : List HostEvent) : Inv (s.withInputs es) :=
  ⟨h.maxCapacity, h.wordsWf, h.wordsInside, h.unconfigured, h.capacity, h.nwords, h.ranges, h.rampUp, h.padding, h.memo⟩

/-- The counter's words are among the array's (R23, R28). -/
theorem Inv.nwords_le_nwordsMax (hc : s.configured = true) : s.nwords.toNat ≤ Config.nwordsMax s.maxCapacity := by
  obtain ⟨-, hcap⟩ := h.capacity hc
  rw [h.nwords hc, Config.nwordsMax]
  omega

/-- The word under the cursor is a word of the counter (R29). -/
theorem Inv.cursor_div_lt_nwords (hc : s.configured = true) : s.cursor.toNat / 64 < s.nwords.toNat := by
  obtain ⟨hcur, -⟩ := h.ranges hc
  rw [h.nwords hc]
  omega

/-- Padding bits are zero, so the count is at most the capacity (R31). -/
theorem Inv.total_le_capacity (hc : s.configured = true) : s.total ≤ s.capacity.toNat :=
  total_le_of_bitAt_false (h.padding hc)

end

theorem exec_record_fault_iff {v : Bool} {s : State} :
    (∃ f, exec (.record v) s = .fault f) ↔ s.configured = true ∧
      (s.nwords.toNat ≤ s.cursor.toNat / 64 ∨ Config.nwordsMax s.maxCapacity ≤ s.cursor.toNat / 64 ∨
        s.cursor.toNat + 1 = 2 ^ 28) := by
  rw [exec, execRecord_fault_iff, memRead_error_iff, nextCursor_error_iff, widx_eq, or_assoc]

theorem exec_frac_fault_iff {s : State} :
    (∃ f, exec .frac s = .fault f) ↔ s.configured = true ∧ s.valid = false ∧
      (Config.nwordsMax s.maxCapacity < s.nwords.toNat ∨ 2 ^ 28 ≤ s.total) := by
  rw [exec, execFrac_fault_iff, fracMiss_fault_iff]

/-- Under the invariants every command answers a next state (R86). -/
theorem exec_next_of_inv {s : State} (h : Inv s) (i : Instr) : ∃ t, exec i s = .next t := by
  refine exec_next_of_no_fault fun hf => ?_
  cases i with
  | new cap => exact hf.elim fun f hf => execNew_ne_fault cap s f hf
  | record v =>
    obtain ⟨hc, hout⟩ := exec_record_fault_iff.mp hf
    have hcur := h.cursor_div_lt_nwords hc
    have hwords := h.nwords_le_nwordsMax hc
    obtain ⟨hlt, -⟩ := h.ranges hc
    have hcap := s.capacity.isLt
    omega
  | frac =>
    obtain ⟨hc, -, hout⟩ := exec_frac_fault_iff.mp hf
    have hwords := h.nwords_le_nwordsMax hc
    have htotal := h.total_le_capacity hc
    have hcap := s.capacity.isLt
    omega

/-- An illegal word is answered too. -/
theorem runCommand_next_of_inv {s : State} (h : Inv s) (w : CommandWord) : ∃ t, runCommand w s = .next t := by
  cases hd : decode w with
  | ok i => rw [runCommand_legal hd]; exact exec_next_of_inv h i
  | error e => exact ⟨_, runCommand_illegal hd s⟩

/-! ### A step without a command -/

theorem step_waiting {s : State} (h : s.inputs = []) : step s = .next s := by
  simp only [step, runNext, h]

theorem step_reset {s : State} {l : List (Nat × Word)} {rest : List HostEvent} (h : s.inputs = .reset l :: rest) :
    step s = .next ((s.withInputs rest).hardwareReset l) := by
  simp only [step, runNext, h, runEvent]

/-! ### The parameter of the instance -/

@[simp] theorem State.answer_maxCapacity (s : State) (num den : Count) :
    (s.answer num den).maxCapacity = s.maxCapacity := by
  obtain ⟨-, h⟩ | ⟨-, h⟩ := s.answer_eq num den <;> rw [h, State.respond_maxCapacity]

theorem exec_maxCapacity {i : Instr} {s t : State} (h : exec i s = .next t) : t.maxCapacity = s.maxCapacity := by
  cases i with
  | new cap => obtain ⟨-, rfl⟩ | ⟨-, rfl⟩ | ⟨-, -, rfl⟩ := execNew_cases h <;> simp
  | record v => obtain ⟨-, rfl⟩ | ⟨-, -, -, next, -, rfl⟩ := execRecord_cases h <;> simp
  | frac => obtain ⟨-, rfl⟩ | ⟨-, -, rfl⟩ | ⟨-, -, -, sum, -, rfl⟩ := execFrac_cases h <;> simp

theorem runCommand_maxCapacity {w : CommandWord} {s t : State} (h : runCommand w s = .next t) :
    t.maxCapacity = s.maxCapacity := by
  cases hd : decode w with
  | ok i => exact exec_maxCapacity (runCommand_legal hd s ▸ h)
  | error e =>
    rw [runCommand_illegal hd] at h
    cases h
    exact State.illegalCommand_maxCapacity s

end Sys2Proof.Machine
end

section
/-! The statements of 00_scope.md settled. -/

namespace Sys2Proof.Machine

/-- Settles O8: the inversion of a step with a command word, then of a legal word. -/
theorem stepRunsDecodedCommand : Obligations.StepRunsDecodedCommand := by
  intro s w rest i hin hd
  rw [step_command hin, runCommand_legal hd]
  rfl

/-- Settles O46: no update of the state writes the field, whichever way the step goes. -/
theorem maxCapacityFixed : Obligations.MaxCapacityFixed := by
  intro s t h
  obtain ⟨-, rfl⟩ | ⟨l, rest, -, rfl⟩ | ⟨w, rest, -, hrun⟩ := step_cases h
  · rfl
  · simp
  · simpa using runCommand_maxCapacity hrun

/-- Settles O23: REC faults exactly where its read or its next cursor does. -/
theorem recStopsOutsideDomain : Obligations.RecStopsOutsideDomain := fun _ _ => exec_record_fault_iff

/-- Settles O28: a miss faults exactly where its read or the count does, and `REDUCE` is `TOTAL`
(`reduce_eq_total`). -/
theorem fracStopsOutsideDomain : Obligations.FracStopsOutsideDomain := fun _ => exec_frac_fault_iff

/-- Settles O39: with no event and on a reset the step always answers; a command answers by the invariants, which keep
the cursor, the words and the count in range. -/
theorem stepAlwaysAnswers : Obligations.StepAlwaysAnswers := by
  intro s h
  cases hin : s.inputs with
  | nil => exact ⟨s, step_waiting hin⟩
  | cons e rest =>
    cases e with
    | command w => rw [step_command hin]; exact runCommand_next_of_inv (h.withInputs rest) w
    | reset l => exact ⟨_, step_reset hin⟩

end Sys2Proof.Machine
end

section
/-! Operands and bits: how many words a capacity takes, the one bit REC writes, what clearing leaves, and the next
cursor and count (R18, R37 to R40, R67). -/

namespace Sys2Proof.Machine

/-! ### A capacity and its words (R18) -/

/-- Neither the 29-bit sum nor the 23-bit register loses anything (R85, R86). -/
theorem nwordsOf_toNat (cap : Count) : (nwordsOf cap).toNat = (cap.toNat + 63) / 64 := by
  have hcap := cap.isLt
  rw [nwordsOf, BitVec.toNat_ofNat, Nat.shiftRight_eq_div_pow]
  omega

theorem le_nwordsOf (cap : Count) : cap.toNat ≤ 64 * (nwordsOf cap).toNat := by
  rw [nwordsOf_toNat]; omega

/-! ### One bit of one word (R37 to R40) -/

theorem boff_eq (p : Count) : boff p = 63 - p.toNat % 64 := by
  rw [boff, BitVec.toNat_not, BitVec.extractLsb'_toNat, Nat.shiftRight_zero]

theorem getLsbD_mask {k : Nat} (hk : k < 64) (p : Count) : (mask p).getLsbD k = decide (k = boff p) := by
  rw [mask, BitVec.getLsbD_shiftLeft, BitVec.getLsbD_one, Bool.eq_iff_iff]
  simp only [Bool.and_eq_true, Bool.not_eq_true', decide_eq_true_eq, decide_eq_false_iff_not]
  omega

theorem getLsbD_setSlot {k : Nat} (hk : k < 64) (old : Word) (p : Count) (v : Bool) :
    (setSlot old p v).getLsbD k = if k = boff p then v else old.getLsbD k := by
  have hmask := getLsbD_mask hk p
  cases v with
  | false => rw [setSlot, if_neg (by decide), BitVec.getLsbD_and, BitVec.getLsbD_not, hmask]; split_ifs <;> simp [*]
  | true => rw [setSlot, if_pos rfl, BitVec.getLsbD_or, hmask]; split_ifs <;> simp [*]

theorem bitAt_write_setSlot {m : Memory} (hm : m.wf = true) (p : Count) (v : Bool) (q : Nat) :
    bitAt (m.write (widx p) (setSlot (m.read (widx p)) p v)) q = if q = p.toNat then v else bitAt m q := by
  rw [bitAt, bitAt, Memory.read_write hm, widx_eq]
  by_cases hw : q / 64 = p.toNat / 64
  · rw [if_pos hw, getLsbD_setSlot (by omega), boff_eq, hw]
    congr 1
    exact propext (by omega)
  · rw [if_neg hw, if_neg (by rintro rfl; exact hw rfl)]

theorem bitAt_clearBelow {n p : Nat} (hp : p < 64 * n) (m : Memory) : bitAt (Memory.clearBelow n m) p = false := by
  rw [bitAt, Memory.read_clearBelow, if_pos (by omega), Memory.unlisted, BitVec.ofNat_eq_ofNat, BitVec.getLsbD_zero]

/-- Arrays with the same words below `n` have the same count there. -/
theorem total_congr {m m' : Memory} {n : Nat} (h : ∀ i, i < n → m.read i = m'.read i) : total m n = total m' n := by
  induction n with
  | zero => rfl
  | succ n ih => rw [total, total, ih fun i hi => h i (by omega), h n (by omega)]

/-! ### The next cursor and the next count (R67) -/

theorem nextCursor_toNat {capacity p next : Count} (h : nextCursor capacity p = .ok next)
    (hp : p.toNat < capacity.toNat) :
    next.toNat = (p.toNat + 1) % capacity.toNat := by
  have hcap := capacity.isLt
  by_cases hw : p.toNat + 1 = capacity.toNat
  · rw [nextCursor_wrap hw] at h
    cases h
    rw [hw, Nat.mod_self]
    rfl
  · rw [nextCursor, if_neg hw] at h
    rw [(toCount_ok h).2, Nat.mod_eq_of_lt (by omega)]

theorem nextObserved_toNat {capacity observed : Count} (h : observed.toNat ≤ capacity.toNat) :
    (nextObserved capacity observed).toNat = min (observed.toNat + 1) capacity.toNat := by
  have hcap := capacity.isLt
  rw [nextObserved]
  split_ifs with hlt
  · simp only [BitVec.toNat_add, BitVec.ofNat_eq_ofNat, BitVec.toNat_ofNat]; omega
  · omega

end Sys2Proof.Machine
end

section
/-! What a command does, said forward: what each command answers under
the invariants, and which numbers of a word spell which command (R50 to R54, R93). -/

namespace Sys2Proof.Machine

/-! ### `State.answer` -/

/-- An answer sends one response and writes nothing else, whichever of the two it is. -/
theorem State.answer_eq_respond (s : State) (num den : Count) :
    ∃ st n d, s.answer num den = s.respond st n d := by
  obtain ⟨-, h⟩ | ⟨-, h⟩ := s.answer_eq num den
  · exact ⟨_, _, _, h⟩
  · exact ⟨_, _, _, h⟩

/-! ### What each command answers -/

/-- The state REC leaves before it responds: the slot under the cursor set to `v`, the cursor moved to `next` (R67). -/
abbrev State.recorded (s : State) (v : Bool) (next : Count) : State :=
  s.observe (widx s.cursor) (setSlot (s.words.read (widx s.cursor)) s.cursor v) next

theorem execNew_invalid {cap : Count} (h : cap.toNat = 0) (s : State) :
    execNew cap s = .next (s.raise .invalidCapacity) := if_pos h

theorem execNew_tooLarge {cap : Count} {s : State} (h : s.maxCapacity.toNat < cap.toNat) :
    execNew cap s = .next (s.raise .capacityTooLarge) := by
  rw [execNew, if_neg (by omega), if_pos h]

theorem execNew_ok {cap : Count} {s : State} (h1 : 1 ≤ cap.toNat) (hle : cap.toNat ≤ s.maxCapacity.toNat) :
    execNew cap s = .next ((s.create cap).respond .ok 0 0) := by
  rw [execNew, if_neg (by omega), if_neg (by omega)]

theorem execRecord_noCounter {s : State} (hc : s.configured = false) (v : Bool) :
    execRecord v s = .next (s.raise .noCounter) := by
  rw [execRecord, hc]
  rfl

theorem execRecord_of_inv {s : State} (h : Inv s) (hc : s.configured = true) (v : Bool) :
    ∃ next, nextCursor s.capacity s.cursor = .ok next ∧
      execRecord v s = .next ((s.recorded v next).respond .ok 0 0) := by
  obtain ⟨t, ht : execRecord v s = .next t⟩ := exec_next_of_inv h (.record v)
  obtain ⟨hc', -⟩ | ⟨-, -, -, next, hnext, rfl⟩ := execRecord_cases ht
  · simp [hc] at hc'
  · exact ⟨next, hnext, ht⟩

theorem execFrac_noCounter {s : State} (hc : s.configured = false) : execFrac s = .next (s.raise .noCounter) := by
  rw [execFrac, hc]
  rfl

theorem execFrac_hit {s : State} (hc : s.configured = true) (hv : s.valid = true) :
    execFrac s = .next (s.answer s.cnum s.cden) := by
  rw [execFrac, hc, hv]
  rfl

theorem execFrac_miss_of_inv {s : State} (h : Inv s) (hc : s.configured = true) (hv : s.valid = false) :
    ∃ sum : Count, sum.toNat = s.total ∧ execFrac s = .next ((s.fillMemo sum s.observed).answer sum s.observed) := by
  obtain ⟨t, ht : execFrac s = .next t⟩ := exec_next_of_inv h .frac
  obtain ⟨hc', -⟩ | ⟨-, hv', -⟩ | ⟨-, -, -, sum, hsum, rfl⟩ := execFrac_cases ht
  · simp [hc] at hc'
  · simp [hv] at hv'
  · exact ⟨sum, hsum.trans (reduce_eq_total _ _), ht⟩

theorem State.answer_of_observed {s : State} (h : s.observed.toNat ≠ 0) (num den : Count) :
    s.answer num den = s.respond .ok num den := if_neg h

/-- After some observation FRAC answers the count over the observations, by a hit or by a miss (R71, R72). -/
theorem execFrac_answers_total {s : State} (h : Inv s) (hc : s.configured = true) (hobs : s.observed.toNat ≠ 0) :
    ∃ t num, execFrac s = .next t ∧ t.responses = s.responses ++ [responseWord .ok num s.observed] ∧
      num.toNat = s.total := by
  cases hv : s.valid with
  | true =>
    obtain ⟨hnum, hden⟩ := h.memo hc hv
    exact ⟨_, s.cnum, execFrac_hit hc hv, by
      rw [State.answer_of_observed hobs, hden, State.respond_responses], hnum⟩
  | false =>
    obtain ⟨sum, hsum, ht⟩ := execFrac_miss_of_inv h hc hv
    exact ⟨_, sum, ht, by
      rw [State.answer_of_observed (s := s.fillMemo sum s.observed) hobs, State.respond_responses, State.fillMemo_responses], hsum⟩

/-- FRAC writes nothing but the memo, and that only on a miss (R26, R70, R72). -/
theorem execFrac_frame {s t : State} (ht : execFrac s = .next t) :
    t.configured = s.configured ∧ t.capacity = s.capacity ∧ t.nwords = s.nwords ∧ t.cursor = s.cursor ∧
    t.observed = s.observed ∧ t.words = s.words ∧ t.maxCapacity = s.maxCapacity ∧ t.inputs = s.inputs ∧
    (s.valid = true ∨ s.configured = false → t.valid = s.valid ∧ t.cnum = s.cnum ∧ t.cden = s.cden) ∧
    ∃ r, t.responses = s.responses ++ [r] := by
  obtain ⟨-, rfl⟩ | ⟨-, -, rfl⟩ | ⟨hc, hv, -, sum, -, rfl⟩ := execFrac_cases ht
  · exact ⟨rfl, rfl, rfl, rfl, rfl, rfl, rfl, rfl, fun _ => ⟨rfl, rfl, rfl⟩, _, rfl⟩
  · obtain ⟨st, n, d, ha⟩ := s.answer_eq_respond s.cnum s.cden
    rw [ha]
    exact ⟨rfl, rfl, rfl, rfl, rfl, rfl, rfl, rfl, fun _ => ⟨rfl, rfl, rfl⟩, _, rfl⟩
  · obtain ⟨st, n, d, ha⟩ := (s.fillMemo sum s.observed).answer_eq_respond sum s.observed
    rw [ha]
    exact ⟨rfl, rfl, rfl, rfl, rfl, rfl, rfl, rfl, fun hno => by simp [hc, hv] at hno, _, rfl⟩

/-- Everything a command word can do: run its command, or be answered as illegal. -/
theorem runCommand_cases {w : CommandWord} {s t : State} (h : runCommand w s = .next t) :
    (∃ i, decode w = .ok i ∧ exec i s = .next t) ∨ ((∃ e, decode w = .error e) ∧ t = s.illegalCommand) := by
  cases hd : decode w with
  | ok i => exact .inl ⟨i, rfl, runCommand_legal hd s ▸ h⟩
  | error e =>
    rw [runCommand_illegal hd] at h
    cases h
    exact .inr ⟨⟨e, rfl⟩, rfl⟩

/-! ### The numbers of a word (R50 to R54) -/

theorem opField_toNat (w : CommandWord) : (opField w).toNat = w.toNat / 2 ^ 28 := by
  have := w.isLt
  rw [opField, BitVec.extractLsb'_toNat, Nat.shiftRight_eq_div_pow, Nat.mod_eq_of_lt (by omega)]

theorem argField_toNat (w : CommandWord) : (argField w).toNat = w.toNat % 2 ^ 28 := by
  rw [argField, BitVec.extractLsb'_toNat, Nat.shiftRight_zero]

theorem decode_new {w : CommandWord} {cap : Count} (h : decode w = .ok (.new cap)) :
    w.toNat / 2 ^ 28 = 1 ∧ w.toNat % 2 ^ 28 = cap.toNat := by
  unfold decode at h
  split_ifs at h with hop <;> cases h
  exact ⟨(opField_toNat w).symm.trans (congrArg BitVec.toNat hop), (argField_toNat w).symm⟩

theorem decode_record {w : CommandWord} {v : Bool} (h : decode w = .ok (.record v)) :
    w.toNat / 2 ^ 28 = 2 ∧ w.toNat % 2 ^ 28 / 2 = 0 := by
  unfold decode at h
  split_ifs at h with h1 hop harg <;> cases h
  have harg := congrArg BitVec.toNat harg
  rw [BitVec.extractLsb'_toNat, argField_toNat, Nat.shiftRight_eq_div_pow, BitVec.toNat_zero] at harg
  exact ⟨(opField_toNat w).symm.trans (congrArg BitVec.toNat hop), by omega⟩

theorem expectedStatus_new {w : CommandWord} {cap : Count} (h : decode w = .ok (.new cap)) (s : State) :
    expectedStatus w s =
      if cap.toNat = 0 then .invalidCapacity else if s.maxCapacity.toNat < cap.toNat then .capacityTooLarge else .ok := by
  obtain ⟨hop, harg⟩ := decode_new h
  simp only [expectedStatus, hop, harg, if_true, gt_iff_lt]

theorem expectedStatus_new_eq_ok {w : CommandWord} {cap : Count} (h : decode w = .ok (.new cap)) (s : State) :
    expectedStatus w s = .ok ↔ 1 ≤ cap.toNat ∧ cap.toNat ≤ s.maxCapacity.toNat := by
  rw [expectedStatus_new h]
  split_ifs <;> simp <;> omega

theorem expectedStatus_record {w : CommandWord} {v : Bool} (h : decode w = .ok (.record v)) (s : State) :
    expectedStatus w s = if s.configured = false then .noCounter else .ok := by
  obtain ⟨hop, harg⟩ := decode_record h
  simp only [expectedStatus, hop, harg, and_self, if_true]
  rfl

end Sys2Proof.Machine
end

section
/-! The invariants of 10_state.md section 5 hold after a reset and are kept by every update a command makes, so by every
step (R28 to R33). -/

namespace Sys2Proof.Machine

/-! ### What REC does to the bits -/

theorem bitAt_recorded {s : State} (hwf : s.words.wf = true) (v : Bool) (next : Count) (q : Nat) :
    bitAt (s.recorded v next).words q = if q = s.cursor.toNat then v else bitAt s.words q :=
  bitAt_write_setSlot hwf s.cursor v q

theorem bitAt_create {cap : Count} {p : Nat} (hp : p < 64 * (nwordsOf cap).toNat) (s : State) :
    bitAt (s.create cap).words p = false :=
  bitAt_clearBelow hp s.words

/-! ### After a reset -/

theorem inv_hardwareReset {s : State} (h : legalMaxCapacity s.maxCapacity = true) (l : List (Nat × Word)) :
    Inv (s.hardwareReset l) where
  maxCapacity := h
  wordsWf := Memory.wf_ofCells _ l
  wordsInside := Memory.inside_ofCells _ l
  unconfigured := fun _ => ⟨rfl, rfl, rfl, rfl, rfl, rfl, rfl⟩
  capacity := by simp
  nwords := by simp
  ranges := by simp
  rampUp := by simp
  padding := by simp
  memo := by simp

/-! ### Under the invariants -/

section
variable {s : State} (h : Inv s)
include h

/-- The invariants do not look at the responses. -/
theorem Inv.respond (st : Status) (num den : Count) : Inv (s.respond st num den) :=
  ⟨h.maxCapacity, h.wordsWf, h.wordsInside, h.unconfigured, h.capacity, h.nwords, h.ranges, h.rampUp, h.padding, h.memo⟩

theorem Inv.raise (st : Status) : Inv (s.raise st) := h.respond st 0 0

theorem Inv.answer (num den : Count) : Inv (s.answer num den) := by
  obtain ⟨st, n, d, ha⟩ := s.answer_eq_respond num den
  exact ha ▸ h.respond st n d

theorem Inv.create {cap : Count} (h1 : 1 ≤ cap.toNat) (hle : cap.toNat ≤ s.maxCapacity.toNat) :
    Inv (s.create cap) where
  maxCapacity := h.maxCapacity
  wordsWf := Memory.wf_clearBelow h.wordsWf _
  wordsInside := Memory.inside_clearBelow h.wordsInside _
  unconfigured := by simp
  capacity := fun _ => ⟨h1, hle⟩
  nwords := fun _ => nwordsOf_toNat cap
  ranges := fun _ => ⟨h1, Nat.zero_le _⟩
  rampUp := fun _ _ => ⟨rfl, fun _ hp _ => bitAt_create (hp.trans_le (le_nwordsOf cap)) s⟩
  padding := fun _ _ hp _ => bitAt_create hp s
  memo := by simp

/-- During ramp-up no slot from the count up is set, and padding never is (R30, R31). -/
theorem Inv.bitAt_of_observed_le (hc : s.configured = true) {p : Nat} (hp : p < 64 * s.nwords.toNat)
    (hobs : s.observed.toNat ≤ p) : bitAt s.words p = false := by
  obtain ⟨-, hle⟩ := h.ranges hc
  by_cases hcap : p < s.capacity.toNat
  · exact (h.rampUp hc (by omega)).2 p hcap hobs
  · exact h.padding hc p hp (by omega)

/-- The set bits are among the written slots (R32). -/
theorem Inv.total_le_observed (hc : s.configured = true) : s.total ≤ s.observed.toNat :=
  total_le_of_bitAt_false fun _ hp hobs => h.bitAt_of_observed_le hc hp hobs

theorem Inv.recorded (hc : s.configured = true) (v : Bool) {next : Count}
    (hnext : nextCursor s.capacity s.cursor = .ok next) :
    Inv (s.recorded v next) := by
  obtain ⟨hcur, hobs⟩ := h.ranges hc
  have hword : widx s.cursor < Config.nwordsMax s.maxCapacity :=
    widx_eq s.cursor ▸ (h.cursor_div_lt_nwords hc).trans_le (h.nwords_le_nwordsMax hc)
  have hcur' := nextCursor_toNat hnext hcur
  have hobs' := nextObserved_toNat hobs
  have hbits := bitAt_recorded h.wordsWf v next
  exact {
    maxCapacity := h.maxCapacity
    wordsWf := Memory.wf_write h.wordsWf _ _
    wordsInside := Memory.inside_write h.wordsInside hword _
    unconfigured := by simp [hc]
    capacity := h.capacity
    nwords := h.nwords
    ranges := fun _ => by
      simp only [State.observe_cursor, State.observe_observed, State.observe_capacity, hcur', hobs']
      exact ⟨Nat.mod_lt _ (by omega), Nat.min_le_right _ _⟩
    rampUp := fun _ hlt => by
      simp only [State.observe_cursor, State.observe_observed, State.observe_capacity] at hlt ⊢
      obtain ⟨hcurObs, hzero⟩ := h.rampUp hc (by omega)
      refine ⟨BitVec.eq_of_toNat_eq ?_, fun p hp hle => ?_⟩
      · rw [hcur', hobs', hcurObs, Nat.mod_eq_of_lt (by omega)]
        omega
      · rw [hbits, if_neg (by rw [hcurObs]; omega)]
        exact hzero p hp (by omega)
    padding := fun _ p hp hle => by
      have hle : s.capacity.toNat ≤ p := hle
      rw [hbits, if_neg (by omega)]
      exact h.padding hc p hp hle
    memo := by simp }

theorem Inv.fillMemo (hc : s.configured = true) {sum : Count} (hsum : sum.toNat = s.total) :
    Inv (s.fillMemo sum s.observed) where
  maxCapacity := h.maxCapacity
  wordsWf := h.wordsWf
  wordsInside := h.wordsInside
  unconfigured := by simp [hc]
  capacity := h.capacity
  nwords := h.nwords
  ranges := h.ranges
  rampUp := h.rampUp
  padding := h.padding
  memo := fun _ _ => ⟨hsum, rfl⟩

end

/-! ### Every command and every step -/

theorem exec_keeps_inv {i : Instr} {s t : State} (h : Inv s) (ht : exec i s = .next t) : Inv t := by
  cases i with
  | new cap =>
    obtain ⟨-, rfl⟩ | ⟨-, rfl⟩ | ⟨h1, hle, rfl⟩ := execNew_cases ht
    · exact h.raise _
    · exact h.raise _
    · exact (h.create h1 hle).respond _ _ _
  | record v =>
    obtain ⟨-, rfl⟩ | ⟨hc, -, -, next, hnext, rfl⟩ := execRecord_cases ht
    · exact h.raise _
    · exact (h.recorded hc v hnext).respond _ _ _
  | frac =>
    obtain ⟨-, rfl⟩ | ⟨-, -, rfl⟩ | ⟨hc, -, -, sum, hsum, rfl⟩ := execFrac_cases ht
    · exact h.raise _
    · exact h.answer _ _
    · exact (h.fillMemo hc (hsum.trans (reduce_eq_total _ _))).answer _ _

theorem runCommand_keeps_inv {w : CommandWord} {s t : State} (h : Inv s) (ht : runCommand w s = .next t) : Inv t := by
  obtain ⟨i, -, hi⟩ | ⟨-, rfl⟩ := runCommand_cases ht
  · exact exec_keeps_inv h hi
  · exact h.raise _

end Sys2Proof.Machine
end

section
/-! The history reading of the state (R34): what each update does to it, and that under it the set bits are the ones
among the retained observations. -/

namespace Sys2Proof.Machine

/-! ### What each update does to the history -/

theorem Reflects.congr {h : List Bool} {s t : State} (hr : Reflects h s) (hobs : t.observed = s.observed)
    (hcur : t.cursor = s.cursor) (hcap : t.capacity = s.capacity) (hwords : t.words = s.words) : Reflects h t where
  observed := by rw [hobs, hcap]; exact hr.observed
  cursor := by rw [hcur, hcap]; exact hr.cursor
  written := by rw [hcap, hwords]; exact hr.written
  unwritten := by rw [hcap, hwords]; exact hr.unwritten

/-- A fresh counter stands for the empty history (R64). -/
theorem reflects_nil_create (s : State) (cap : Count) : Reflects [] (s.create cap) where
  observed := rfl
  cursor := rfl
  written := fun _ hj => absurd hj (Nat.not_lt_zero _)
  unwritten := fun _ hp _ => bitAt_create (hp.trans_le (le_nwordsOf cap)) s

/-- Recording appends its value: the slot under the cursor is the one the new observation takes (R67). -/
theorem Reflects.recorded {h : List Bool} {s : State} (hr : Reflects h s) (hs : Inv s)
    (hc : s.configured = true) (v : Bool) {next : Count} (hnext : nextCursor s.capacity s.cursor = .ok next) : Reflects (h ++ [v]) (s.recorded v next) := by
  obtain ⟨hcur, hobs⟩ := hs.ranges hc
  have hbits := bitAt_recorded hs.wordsWf v next
  rw [hr.cursor] at hbits
  have hlen : (h ++ [v]).length = h.length + 1 := List.length_append
  exact {
    observed := by
      rw [State.observe_observed, nextObserved_toNat hobs, hr.observed, hlen, State.observe_capacity]
      omega
    cursor := by
      rw [State.observe_cursor, nextCursor_toNat hnext hcur, hr.cursor, hlen, State.observe_capacity, Nat.mod_add_mod]
    written := fun j hj hlast => by
      simp only [State.observe_capacity, hlen] at hj hlast ⊢
      rw [hbits]
      rcases Nat.lt_succ_iff_lt_or_eq.mp hj with hlt | rfl
      · rw [if_neg (hlast _ (by omega) hlt).symm, List.getElem_append_left hlt]
        exact hr.written j hlt fun j' hj' => hlast j' (by omega)
      · rw [if_pos rfl, List.getElem_concat_length rfl]
    unwritten := fun p hp hnone => by
      simp only [State.observe_capacity, hlen] at hp hnone ⊢
      rw [hbits, if_neg (hnone _ (by omega)).symm]
      exact hr.unwritten p hp fun j hj => hnone j (by omega) }

/-! ### What each command does to the history -/

theorem execNew_ok_reflects {cap : Count} {s t : State} (h1 : 1 ≤ cap.toNat) (hle : cap.toNat ≤ s.maxCapacity.toNat)
    (ht : exec (.new cap) s = .next t) : Reflects [] t := by
  cases (execNew_ok h1 hle).symm.trans ht
  exact (reflects_nil_create s cap).congr rfl rfl rfl rfl

theorem execRecord_reflects {h : List Bool} {v : Bool} {s t : State} (hr : Reflects h s) (hs : Inv s)
    (hc : s.configured = true) (ht : exec (.record v) s = .next t) : Reflects (h ++ [v]) t := by
  obtain ⟨next, hnext, heq⟩ := execRecord_of_inv hs hc v
  cases heq.symm.trans ht
  exact (hr.recorded hs hc v hnext).congr rfl rfl rfl rfl

theorem execFrac_reflects {h : List Bool} {s t : State} (hr : Reflects h s) (ht : exec .frac s = .next t) :
    Reflects h t := by
  obtain ⟨-, hcap, -, hcur, hobs, hwords, -⟩ := execFrac_frame ht
  exact hr.congr hobs hcur hcap hwords

/-- With a counter, a command that is not answered OK leaves the history as it is. -/
theorem runCommand_not_ok_reflects {h : List Bool} {w : CommandWord} {s t : State} (hr : Reflects h s)
    (hc : s.configured = true) (hst : expectedStatus w s ≠ .ok) (ht : runCommand w s = .next t) : Reflects h t := by
  obtain ⟨i, hd, hi⟩ | ⟨-, rfl⟩ := runCommand_cases ht
  · cases i with
    | new cap =>
      rw [ne_eq, expectedStatus_new_eq_ok hd] at hst
      obtain ⟨-, rfl⟩ | ⟨-, rfl⟩ | ⟨h1, hle, -⟩ := execNew_cases hi
      · exact hr.congr rfl rfl rfl rfl
      · exact hr.congr rfl rfl rfl rfl
      · exact absurd ⟨h1, hle⟩ hst
    | record v => simp [expectedStatus_record hd, hc] at hst
    | frac => exact execFrac_reflects hr hi
  · exact hr.congr rfl rfl rfl rfl

/-! ### The count over the retained observations -/

theorem length_window (capacity : Nat) (h : List Bool) : (window capacity h).length = min h.length capacity := by
  rw [window, List.length_drop]
  omega

/-- Every retained observation is still the bit of the slot it was written to. -/
theorem Reflects.bitAt_window {h : List Bool} {s : State} (hr : Reflects h s) {j : Nat} (hj : j < h.length)
    (hret : h.length - min h.length s.capacity.toNat ≤ j) : bitAt s.words (j % s.capacity.toNat) = h[j] := by
  refine hr.written j hj fun j' hj' hlt heq => ?_
  have hdvd : s.capacity.toNat ∣ j' - j := (Nat.modEq_iff_dvd' hlt.le).mp heq.symm
  have := Nat.le_of_dvd (by omega) hdvd
  omega

/-- The retained observations, read off the slots they were written to. -/
theorem Reflects.window_eq_map {h : List Bool} {s : State} (hr : Reflects h s) :
    window s.capacity.toNat h =
      (List.range' (h.length - min h.length s.capacity.toNat) (min h.length s.capacity.toNat)).map
        fun j => bitAt s.words (j % s.capacity.toNat) := by
  refine List.ext_getElem (by simp [length_window]) fun i hi _ => ?_
  rw [length_window] at hi
  rw [List.getElem_map, List.getElem_range', Nat.one_mul, hr.bitAt_window (by omega) (by omega)]
  exact List.getElem_drop

/-- Any `n` consecutive positions of a ring of `n` slots count what its slots count. -/
theorem countP_range'_mod (f : Nat → Bool) (a n : Nat) :
    (List.range' a n).countP (fun j => f (j % n)) = (List.range n).countP f := by
  have hperm : ((List.range' a (a + n - a)).map (· % n)).Perm (List.range n) :=
    Multiset.coe_eq_coe.mp (Nat.multiset_Ico_map_mod a n)
  rw [Nat.add_sub_cancel_left] at hperm
  rw [← hperm.countP_eq, List.countP_map]
  rfl

theorem countP_range_eq_of_false {f : Nat → Bool} {n m : Nat} (hnm : n ≤ m) (h : ∀ p, p < m → n ≤ p → f p = false) :
    (List.range m).countP f = (List.range n).countP f := by
  obtain ⟨r, rfl⟩ := Nat.exists_eq_add_of_le hnm
  have hzero : (List.range r).countP (f ∘ (n + ·)) = 0 := by
    refine List.countP_eq_zero.mpr fun i hi => ?_
    have hi := List.mem_range.mp hi
    simp [h (n + i) (by omega) (by omega)]
  rw [List.range_add, List.countP_append, List.countP_map, hzero, Nat.add_zero]

/-- R68: the set bits are the ones among the retained observations. During ramp-up slot and observation have the same
number; in steady state the retained observations go once round the ring. -/
theorem Reflects.total_eq_count_window {h : List Bool} {s : State} (hr : Reflects h s) (hs : Inv s)
    (hc : s.configured = true) : s.total = (window s.capacity.toNat h).count true := by
  have hobs := hr.observed
  have hwords : s.observed.toNat ≤ 64 * s.nwords.toNat := by rw [hs.nwords hc]; omega
  have htotal : s.total = (List.range s.observed.toNat).countP (bitAt s.words) :=
    (total_eq_countP _ _).trans (countP_range_eq_of_false hwords fun _ => hs.bitAt_of_observed_le hc)
  have hwindow : (window s.capacity.toNat h).count true =
      (List.range' (h.length - s.observed.toNat) s.observed.toNat).countP
        fun j => bitAt s.words (j % s.capacity.toNat) := by
    rw [hr.window_eq_map, ← hobs, List.count, List.countP_map]
    simp only [Function.comp_def, beq_true]
  rw [htotal, hwindow]
  rcases Nat.lt_or_ge h.length s.capacity.toNat with hlt | hge
  · have hlen : s.observed.toNat = h.length := by omega
    rw [hlen, Nat.sub_self, ← List.range_eq_range']
    refine List.countP_congr fun j hj => ?_
    rw [Nat.mod_eq_of_lt ((List.mem_range.mp hj).trans hlt)]
  · have hfull : s.observed.toNat = s.capacity.toNat := by omega
    rw [hfull, countP_range'_mod]

end Sys2Proof.Machine
end

section
/-! Two states that hold the same counter: every update keeps the relation, so every command and every step does, and
none looks at the words outside (R16, R23, R27). -/

namespace Sys2Proof.Machine

/-- Both steps answer, and the next states hold the same counter. -/
def SameNext (o o' : Host.Outcome State Fault Refusal) : Prop :=
  ∃ s' t', o = .next s' ∧ o' = .next t' ∧ SameCounter s' t'

section
variable {s t : State} (h : SameCounter s t)
include h

/-! ### What each update does to the relation -/

theorem SameCounter.withInputs {es es' : List HostEvent} (he : es.map HostEvent.shape = es'.map HostEvent.shape) :
    SameCounter (s.withInputs es) (t.withInputs es') :=
  { h with inputs := he }

theorem SameCounter.respond (st : Status) (num den : Count) : SameCounter (s.respond st num den) (t.respond st num den) :=
  { h with responses := by rw [State.respond_responses, State.respond_responses, h.responses] }

theorem SameCounter.raise (st : Status) : SameCounter (s.raise st) (t.raise st) := h.respond st 0 0

theorem SameCounter.answer (num den : Count) : SameCounter (s.answer num den) (t.answer num den) := by
  unfold State.answer
  rw [h.observed]
  split_ifs
  · exact h.respond _ _ _
  · exact h.respond _ _ _

theorem SameCounter.fillMemo (num den : Count) : SameCounter (s.fillMemo num den) (t.fillMemo num den) :=
  { h with valid := rfl, cnum := rfl, cden := rfl }

/-- NEW zeroes every word of the new counter, so the words before it no longer matter (R64). -/
theorem SameCounter.create (cap : Count) : SameCounter (s.create cap) (t.create cap) :=
  { h with
    configured := rfl, capacity := rfl, nwords := rfl, cursor := rfl, observed := rfl, valid := rfl, cnum := rfl
    cden := rfl
    words := fun _ i hi => by
      have hi : i < (nwordsOf cap).toNat := hi
      rw [State.create_words, State.create_words, Memory.read_clearBelow, Memory.read_clearBelow, if_pos hi, if_pos hi] }

theorem SameCounter.hardwareReset (l l' : List (Nat × Word)) :
    SameCounter (s.hardwareReset l) (t.hardwareReset l') :=
  { h with
    configured := rfl, capacity := rfl, nwords := rfl, cursor := rfl, observed := rfl, valid := rfl, cnum := rfl
    cden := rfl
    words := by simp }

/-- REC reads and writes the word under the cursor, which is a word of the counter (R67). -/
theorem SameCounter.recorded (hs : Inv s) (ht : Inv t) (hc : s.configured = true) (v : Bool) (next : Count) :
    SameCounter (s.recorded v next) (t.recorded v next) :=
  { h with
    cursor := rfl, valid := rfl
    observed := by rw [State.observe_observed, State.observe_observed, h.capacity, h.observed]
    words := fun _ i hi => by
      have hcur : widx s.cursor < s.nwords.toNat := widx_eq s.cursor ▸ hs.cursor_div_lt_nwords hc
      rw [State.observe_words, State.observe_words, Memory.read_write hs.wordsWf, Memory.read_write ht.wordsWf,
        h.words hc _ hcur, h.words hc i hi, h.cursor] }

theorem SameCounter.total (hc : s.configured = true) : s.total = t.total := by
  rw [State.total, State.total, ← h.nwords]
  exact total_congr (h.words hc)

/-! ### What each command does to the relation -/

theorem SameCounter.execNew (cap : Count) : SameNext (execNew cap s) (execNew cap t) := by
  have hmax := h.maxCapacity
  rcases Nat.eq_zero_or_pos cap.toNat with h0 | h1
  · exact ⟨_, _, execNew_invalid h0 s, execNew_invalid h0 t, h.raise _⟩
  · rcases Nat.lt_or_ge s.maxCapacity.toNat cap.toNat with hlt | hle
    · exact ⟨_, _, execNew_tooLarge hlt, execNew_tooLarge (hmax ▸ hlt), h.raise _⟩
    · exact ⟨_, _, execNew_ok h1 hle, execNew_ok h1 (hmax ▸ hle), (h.create cap).respond _ _ _⟩

theorem SameCounter.execRecord (hs : Inv s) (ht : Inv t) (v : Bool) : SameNext (execRecord v s) (execRecord v t) := by
  have hconf := h.configured
  cases hc : s.configured with
  | false => exact ⟨_, _, execRecord_noCounter hc v, execRecord_noCounter (hconf ▸ hc) v, h.raise _⟩
  | true =>
    obtain ⟨next, hnext, hrun⟩ := execRecord_of_inv hs hc v
    obtain ⟨next', hnext', hrun'⟩ := execRecord_of_inv ht (hconf ▸ hc) v
    rw [← h.capacity, ← h.cursor, hnext] at hnext'
    cases hnext'
    exact ⟨_, _, hrun, hrun', (h.recorded hs ht hc v next).respond _ _ _⟩

theorem SameCounter.execFrac (hs : Inv s) (ht : Inv t) : SameNext (execFrac s) (execFrac t) := by
  have hconf := h.configured
  have hvalid := h.valid
  cases hc : s.configured with
  | false => exact ⟨_, _, execFrac_noCounter hc, execFrac_noCounter (hconf ▸ hc), h.raise _⟩
  | true =>
    cases hv : s.valid with
    | true =>
      refine ⟨_, _, execFrac_hit hc hv, execFrac_hit (hconf ▸ hc) (hvalid ▸ hv), ?_⟩
      rw [← h.cnum, ← h.cden]
      exact h.answer _ _
    | false =>
      obtain ⟨sum, hsum, hrun⟩ := execFrac_miss_of_inv hs hc hv
      obtain ⟨sum', hsum', hrun'⟩ := execFrac_miss_of_inv ht (hconf ▸ hc) (hvalid ▸ hv)
      have heq : sum = sum' := BitVec.eq_of_toNat_eq (hsum.trans ((h.total hc).trans hsum'.symm))
      subst heq
      rw [← h.observed] at hrun'
      exact ⟨_, _, hrun, hrun', (h.fillMemo _ _).answer _ _⟩

theorem SameCounter.runCommand (hs : Inv s) (ht : Inv t) (w : CommandWord) :
    SameNext (runCommand w s) (runCommand w t) := by
  cases hd : decode w with
  | error e => exact ⟨_, _, runCommand_illegal hd s, runCommand_illegal hd t, h.raise _⟩
  | ok i =>
    rw [runCommand_legal hd, runCommand_legal hd]
    cases i with
    | new cap => exact h.execNew cap
    | record v => exact h.execRecord hs ht v
    | frac => exact h.execFrac hs ht

end

/-- Two events of the same shape are the same command word, or two resets. -/
theorem shape_eq_cases {e e' : HostEvent} (h : e.shape = e'.shape) :
    (∃ w, e = .command w ∧ e' = .command w) ∨ ∃ l l', e = .reset l ∧ e' = .reset l' := by
  cases e with
  | command w =>
    cases e' with
    | command w' => cases h; exact .inl ⟨w, rfl, rfl⟩
    | reset l' => cases h
  | reset l =>
    cases e' with
    | command w' => cases h
    | reset l' => exact .inr ⟨l, l', rfl, rfl⟩

theorem SameCounter.step {s t : State} (h : SameCounter s t) (hs : Inv s) (ht : Inv t) : SameNext (step s) (step t) := by
  have hinputs := h.inputs
  cases hin : s.inputs with
  | nil =>
    have hin' : t.inputs = [] := List.map_eq_nil_iff.mp (by rw [← hinputs, hin, List.map_nil])
    exact ⟨s, t, step_waiting hin, step_waiting hin', h⟩
  | cons e rest =>
    rw [hin, List.map_cons] at hinputs
    obtain ⟨e', rest', hin', hshape, hrest⟩ := List.map_eq_cons_iff.mp hinputs.symm
    have hout := h.withInputs hrest.symm
    obtain ⟨w, rfl, rfl⟩ | ⟨l', l, rfl, rfl⟩ := shape_eq_cases hshape
    · rw [step_command hin, step_command hin']
      exact hout.runCommand (hs.withInputs rest) (ht.withInputs rest') w
    · exact ⟨_, _, step_reset hin, step_reset hin', hout.hardwareReset l l'⟩

end Sys2Proof.Machine
end

section
/-! A reset event may leave any contents of the array: cells in canonical form come out as they are (R27). -/

namespace Sys2Proof.Machine

/-- In a canonical array a cell's index is at least the bound and its word is listed for a reason. -/
theorem Memory.wfFrom_append_cons {lo i : Nat} {w : Word} {m l : Memory}
    (h : Memory.wfFrom lo (m ++ (i, w) :: l) = true) : lo ≤ i ∧ w ≠ Memory.unlisted := by
  induction m generalizing lo with
  | nil =>
    simp only [List.nil_append, Memory.wfFrom, Bool.and_eq_true, decide_eq_true_eq, bne_iff_ne] at h
    exact h.1
  | cons c m ih =>
    simp only [List.cons_append, Memory.wfFrom, Bool.and_eq_true, decide_eq_true_eq] at h
    obtain ⟨⟨hlo, -⟩, htail⟩ := h
    obtain ⟨hi, hw⟩ := ih htail
    exact ⟨by omega, hw⟩

/-- Writing the next cell of a canonical array puts it at the end of the cells before it. -/
theorem Memory.write_eq_append {lo i : Nat} {w : Word} {m l : Memory}
    (h : Memory.wfFrom lo (m ++ (i, w) :: l) = true) : m.write i w = m ++ [(i, w)] := by
  induction m generalizing lo with
  | nil => exact if_neg (Memory.wfFrom_append_cons h).2
  | cons c m ih =>
    simp only [List.cons_append, Memory.wfFrom, Bool.and_eq_true] at h
    obtain ⟨-, htail⟩ := h
    obtain ⟨hi, -⟩ := Memory.wfFrom_append_cons htail
    rw [Memory.write, if_neg (by omega), if_neg (by omega), ih htail, List.cons_append]

theorem Memory.foldl_cells_eq_append {size : Nat} {m l : Memory} (hwf : Memory.wf (m ++ l) = true)
    (hin : Memory.inside size l = true) :
    l.foldl (fun m c => if c.1 < size then Memory.write m c.1 c.2 else m) m = m ++ l := by
  induction l generalizing m with
  | nil => rw [List.foldl_nil, List.append_nil]
  | cons c l ih =>
    simp only [Memory.inside, List.all_cons, Bool.and_eq_true, decide_eq_true_eq] at hin
    obtain ⟨hc, hl⟩ := hin
    have happ : m ++ [c] ++ l = m ++ c :: l := (List.append_cons m c l).symm
    rw [List.foldl_cons, if_pos hc, Memory.write_eq_append hwf, ih (happ ▸ hwf) hl, happ]

theorem Memory.ofCells_of_wf {size : Nat} {l : Memory} (hwf : l.wf = true) (hin : l.inside size = true) :
    Memory.ofCells size l = l :=
  Memory.foldl_cells_eq_append (m := []) hwf hin

end Sys2Proof.Machine
end

section
/-! The life of a counter: what begins it and changes its capacity, and how its count grows (R16, R17, R20, R99). -/

namespace Sys2Proof.Machine

/-- A counter begins, and its capacity changes, only by a NEW that succeeds. -/
theorem exec_lifetime {i : Instr} {s t : State} (ht : exec i s = .next t) :
    (t.configured = s.configured ∧ t.capacity = s.capacity ∧ t.nwords = s.nwords) ∨
    ∃ cap, i = .new cap ∧ 1 ≤ cap.toNat ∧ cap.toNat ≤ s.maxCapacity.toNat ∧ t = (s.create cap).respond .ok 0 0 := by
  cases i with
  | new cap =>
    obtain ⟨-, rfl⟩ | ⟨-, rfl⟩ | ⟨h1, hle, rfl⟩ := execNew_cases ht
    · exact .inl ⟨rfl, rfl, rfl⟩
    · exact .inl ⟨rfl, rfl, rfl⟩
    · exact .inr ⟨cap, rfl, h1, hle, rfl⟩
  | record v =>
    obtain ⟨-, rfl⟩ | ⟨-, -, -, next, -, rfl⟩ := execRecord_cases ht
    · exact .inl ⟨rfl, rfl, rfl⟩
    · exact .inl ⟨rfl, rfl, rfl⟩
  | frac =>
    obtain ⟨hconf, hcap, hwords, -⟩ := execFrac_frame ht
    exact .inl ⟨hconf, hcap, hwords⟩

theorem Inv.observed_le_capacity {s : State} (h : Inv s) : s.observed.toNat ≤ s.capacity.toNat := by
  cases hc : s.configured with
  | false =>
    obtain ⟨hcap, -, -, hobs, -⟩ := h.unconfigured hc
    rw [hcap, hobs]
  | true => exact (h.ranges hc).2

/-- A command that does not create a counter adds at most one observation, up to the capacity. -/
theorem exec_observed {i : Instr} {s t : State} (ht : exec i s = .next t) :
    (∃ cap, i = .new cap ∧ 1 ≤ cap.toNat ∧ cap.toNat ≤ s.maxCapacity.toNat ∧ t.observed = 0) ∨
    t.observed = s.observed ∨ t.observed = nextObserved s.capacity s.observed := by
  cases i with
  | new cap =>
    obtain ⟨-, rfl⟩ | ⟨-, rfl⟩ | ⟨h1, hle, rfl⟩ := execNew_cases ht
    · exact .inr (.inl rfl)
    · exact .inr (.inl rfl)
    · exact .inl ⟨cap, rfl, h1, hle, rfl⟩
  | record v =>
    obtain ⟨-, rfl⟩ | ⟨-, -, -, next, -, rfl⟩ := execRecord_cases ht
    · exact .inr (.inl rfl)
    · exact .inr (.inr rfl)
  | frac =>
    obtain ⟨-, -, -, -, hobs, -⟩ := execFrac_frame ht
    exact .inr (.inl hobs)

end Sys2Proof.Machine
end

section
/-! The statements of 10_state.md settled. -/

namespace Sys2Proof.Machine

/-- Settles O38: waiting changes nothing, a reset gives the reset column, and a command keeps the invariants update by
update. -/
theorem stepKeepsInvariants : Obligations.StepKeepsInvariants := by
  intro s t h ht
  obtain ⟨-, rfl⟩ | ⟨l, rest, -, rfl⟩ | ⟨w, rest, -, hrun⟩ := step_cases ht
  · exact h
  · exact inv_hardwareReset (h.withInputs rest).maxCapacity l
  · exact runCommand_keeps_inv (h.withInputs rest) hrun

/-- Settles O48: a fresh counter stands for no observation, REC appends one, and no other command touches what the
history reading looks at. -/
theorem stepExtendsHistory : Obligations.StepExtendsHistory := by
  intro s t w rest h hs hc hr hin ht
  rw [step_command hin] at ht
  have hr : Reflects h (s.withInputs rest) := hr.congr rfl rfl rfl rfl
  refine ⟨fun cap hd hok => ?_, fun v hd => ?_, fun hkeep => ?_⟩
  · obtain ⟨h1, hle⟩ := (expectedStatus_new_eq_ok hd (s.withInputs rest)).mp hok
    exact execNew_ok_reflects h1 hle (runCommand_legal hd _ ▸ ht)
  · exact execRecord_reflects hr (hs.withInputs rest) hc (runCommand_legal hd _ ▸ ht)
  · rcases hkeep with hd | hst
    · exact execFrac_reflects hr (runCommand_legal hd _ ▸ ht)
    · exact runCommand_not_ok_reflects (s := s.withInputs rest) hr hc hst ht

/-- Settles O50: what the two states may differ in is written before it is read (NEW) or lies outside the words REC and
FRAC read. -/
theorem outsideWordsNeverRead : Obligations.OutsideWordsNeverRead := fun _ _ hs ht h => h.step hs ht

/-- Settles O15: the refused paths write nothing, and a NEW that succeeds clears only below `nwordsOf cap`. -/
theorem newFrame : Obligations.NewFrame := by
  intro cap s t ht
  obtain ⟨-, rfl⟩ | ⟨-, rfl⟩ | ⟨-, -, rfl⟩ := execNew_cases ht
  · exact ⟨rfl, rfl, fun _ _ => rfl, _, rfl⟩
  · exact ⟨rfl, rfl, fun _ _ => rfl, _, rfl⟩
  · refine ⟨rfl, rfl, fun i hi => ?_, _, rfl⟩
    rw [State.respond_words, State.create_words, Memory.read_clearBelow, nwordsOf_toNat, if_neg (by omega)]

/-- Settles O16: `NWORDS` is the rounded-up quotient. -/
theorem nwordsHoldsCapacity : Obligations.NwordsHoldsCapacity := by
  intro cap
  have hcap := cap.isLt
  rw [nwordsOf_toNat]
  omega

/-- Settles O27: none of FRAC's three paths writes more than the memo, and only the miss writes that. -/
theorem fracFrame : Obligations.FracFrame := fun _ _ => execFrac_frame

/-- Settles O40: by the shape of the ramp-up and the padding, no bit from the count up is set. -/
theorem totalAtMostObserved : Obligations.TotalAtMostObserved := fun s h hc =>
  ⟨h.total_le_observed hc, h.total_le_capacity hc, s.capacity.isLt⟩

/-- Settles O45: every command keeps the three registers but a NEW that succeeds. -/
theorem counterLifetime : Obligations.CounterLifetime := by
  intro s t w rest hin ht
  rw [step_command hin] at ht
  obtain ⟨i, hd, hi⟩ | ⟨-, rfl⟩ := runCommand_cases ht
  · obtain ⟨hconf, hcap, hwords⟩ | ⟨cap, rfl, h1, hle, rfl⟩ := exec_lifetime hi
    · exact ⟨fun hc => hconf.trans hc, fun hc hc' => by simp [hconf, hc] at hc', .inl ⟨hcap, hwords⟩⟩
    · exact ⟨fun _ => rfl, fun _ _ => ⟨cap, hd⟩, .inr ⟨hd, h1, hle⟩⟩
  · exact ⟨id, fun hc hc' => by simp [hc] at hc', .inl ⟨rfl, rfl⟩⟩

/-- Settles O47: a command creates a counter, keeps the count, or adds one observation up to the capacity. -/
theorem observedNeverDecreases : Obligations.ObservedNeverDecreases := by
  intro s t w rest h hin ht
  rw [step_command hin] at ht
  have hle := h.observed_le_capacity
  obtain ⟨i, hd, hi⟩ | ⟨-, rfl⟩ := runCommand_cases ht
  · obtain ⟨cap, rfl, h1, hcap, hzero⟩ | hobs | hobs := exec_observed hi
    · exact .inl ⟨cap, hd, (expectedStatus_new_eq_ok hd s).mpr ⟨h1, hcap⟩, hzero⟩
    · rw [hobs]
      exact .inr ⟨le_rfl, Nat.le_succ _, hle⟩
    · have hnext := nextObserved_toNat hle
      rw [hobs, State.withInputs_observed, State.withInputs_capacity]
      exact .inr (by omega)
  · exact .inr ⟨le_rfl, Nat.le_succ _, hle⟩

/-- Settles O49: FRAC answers the count over the observations, and the count is the window's ones. -/
theorem fracAnswersWindow : Obligations.FracAnswersWindow := by
  intro s h hs hc hr hne
  obtain ⟨hcap, -⟩ := hs.capacity hc
  have hlen := List.length_pos_of_ne_nil hne
  have hobs := hr.observed
  obtain ⟨t, num, ht, hresp, hnum⟩ := execFrac_answers_total hs hc (by omega)
  refine ⟨t, _, ht, hresp, responseStatus_responseWord _ _ _, ?_, ?_⟩
  · rw [responseNum_responseWord, hnum, hr.total_eq_count_window hs hc]
  · rw [responseDen_responseWord, hobs]

/-- Settles O11: the fields of `State.reset` as they are written. -/
theorem resetStateValues : Obligations.ResetStateValues :=
  ⟨rfl, rfl, rfl, rfl, rfl, rfl, rfl, rfl, rfl, rfl, rfl⟩

/-- Settles O12: a reset event writes the reset column, and cells in canonical form come out as the words. -/
theorem resetEventValues : Obligations.ResetEventValues := fun _ _ _ hin =>
  ⟨_, step_reset hin, rfl, rfl, rfl, rfl, rfl, rfl, rfl, rfl, rfl, rfl, rfl, Memory.ofCells_of_wf⟩

/-- Settles O37: `State.reset` is what a reset event with no cells leaves there. -/
theorem invariantsAtReset : Obligations.InvariantsAtReset := inv_hardwareReset (s := State.reset) (by decide) []

end Sys2Proof.Machine
end

section
/-! Writing back what is already there changes nothing (R40), and a FRAC after an answer from the memo repeats it (R46). -/

namespace Sys2Proof.Machine

/-! ### Writing back what is there (R40) -/

theorem Memory.write_read_self {m : Memory} (hm : m.wf = true) (i : Nat) : m.write i (m.read i) = m := by
  refine Memory.ext (Memory.wf_write hm i _) hm fun j => ?_
  rw [Memory.read_write hm]
  split_ifs with hj
  · rw [hj]
  · rfl

theorem setSlot_of_getLsbD_eq {old : Word} {p : Count} {v : Bool} (h : old.getLsbD (boff p) = v) :
    setSlot old p v = old := by
  refine BitVec.eq_of_getLsbD_eq fun k hk => ?_
  rw [getLsbD_setSlot hk]
  split_ifs with hbit
  · rw [hbit, h]
  · rfl

/-! ### A query after a query (R46) -/

/-- Which answer FRAC gives to a pair depends on nothing else in the state but the count of observations. -/
theorem State.answer_eq_respond_of_observed (observed num den : Count) :
    ∃ st n d, ∀ s : State, s.observed = observed → s.answer num den = s.respond st n d := by
  by_cases h : observed.toNat = 0
  · exact ⟨.uninitialized, 0, 0, fun s hs => if_pos (hs ▸ h)⟩
  · exact ⟨.ok, num, den, fun s hs => if_neg (hs ▸ h)⟩

/-- A FRAC after an answer from the memo hits and sends the same word again. -/
theorem execFrac_repeats_answer {s : State} (hc : s.configured = true) (hv : s.valid = true) :
    ∃ u r, execFrac (s.answer s.cnum s.cden) = .next u ∧
      (s.answer s.cnum s.cden).responses = s.responses ++ [r] ∧
      u.responses = (s.answer s.cnum s.cden).responses ++ [r] := by
  obtain ⟨st, n, d, hans⟩ := State.answer_eq_respond_of_observed s.observed s.cnum s.cden
  have hagain : execFrac (s.respond st n d) = .next ((s.respond st n d).respond st n d) :=
    (execFrac_hit (s := s.respond st n d) hc hv).trans (congrArg _ (hans (s.respond st n d) rfl))
  rw [hans s rfl]
  exact ⟨_, _, hagain, rfl, rfl⟩

end Sys2Proof.Machine
end

section
/-! The statements of 20_memory.md settled. -/

namespace Sys2Proof.Machine

/-- Settles O17: the slices are the quotient and the complemented remainder, and the mask's one bit is at `boff p`. -/
theorem slicesAddressSlot : Obligations.SlicesAddressSlot := by
  intro p
  have hlow : (p.extractLsb 5 0).toNat = p.toNat % 64 := BitVec.extractLsb'_toNat ..
  refine ⟨rfl, widx_eq p, ?_, rfl, boff_eq p, fun k hk => ?_⟩
  · rw [hlow, boff_eq]
  · rw [getLsbD_mask hk, boff_eq, decide_eq_true_eq]

/-- Settles O18: the write reaches one word and `setSlot` one bit of it; a slot that already holds `v` is written back
as it was. -/
theorem setSlotChangesOneBit : Obligations.SetSlotChangesOneBit := by
  intro m p v hm m'
  refine ⟨fun i hi => ?_, fun k hk hne => ?_, ?_, fun hv => ?_⟩
  · rw [Memory.read_write hm, widx_eq, if_neg hi]
  · rw [Memory.read_write hm, widx_eq, if_pos rfl, getLsbD_setSlot hk, boff_eq, if_neg hne]
  · rw [bitAt_write_setSlot hm, if_pos rfl]
  · have hslot : (m.read (widx p)).getLsbD (boff p) = v := by rwa [widx_eq, boff_eq]
    change m.write (widx p) (setSlot (m.read (widx p)) p v) = m
    rw [setSlot_of_getLsbD_eq hslot, Memory.write_read_self hm]

/-- Settles O29: the first FRAC leaves a fresh memo with the pair it answered, whether it hit or filled the memo itself,
so the second hits; with no counter both answer NoCounter. -/
theorem consecutiveQueriesAgree : Obligations.ConsecutiveQueriesAgree := by
  intro s h
  cases hc : s.configured with
  | false => exact ⟨_, _, _, execFrac_noCounter hc, execFrac_noCounter hc, rfl, rfl⟩
  | true =>
    cases hv : s.valid with
    | true =>
      obtain ⟨u, r, hu, hr, hr'⟩ := execFrac_repeats_answer hc hv
      exact ⟨_, u, r, execFrac_hit hc hv, hu, hr, hr'⟩
    | false =>
      obtain ⟨sum, -, hmiss⟩ := execFrac_miss_of_inv h hc hv
      obtain ⟨u, r, hu, hr, hr'⟩ := execFrac_repeats_answer (s := s.fillMemo sum s.observed) hc rfl
      exact ⟨_, u, r, hmiss, hu, hr, hr'⟩

end Sys2Proof.Machine
end

section
/-! The words of the commands: what the decoder answers by the fields of a word, that it inverts the encoder, and that a
word under a row's mask is the row's match exactly when it decodes to the row's command (R50 to R54, R58). -/

namespace Sys2Proof

/-! ### The decoder by the fields of a word (R50 to R54) -/

/-- Bits 27:1 of a word are bits 27:1 of its operand. -/
theorem argField_extractLsb' (w : CommandWord) : (argField w).extractLsb' 1 27 = w.extractLsb 27 1 :=
  BitVec.extractLsb'_extractLsb'_of_le (by decide)

theorem decode_of_op_one {w : CommandWord} (h : opField w = 0x1#4) : decode w = .ok (.new (argField w)) := if_pos h

theorem decode_of_op_two {w : CommandWord} (h : opField w = 0x2#4) :
    decode w = if w.extractLsb 27 1 = 0#27 then .ok (.record ((argField w).getLsbD 0)) else .error .recArg := by
  simp [decode, h, argField_extractLsb']

theorem decode_of_op_three {w : CommandWord} (h : opField w = 0x3#4) :
    decode w = if argField w = 0#28 then .ok .frac else .error .fracArg := by
  simp [decode, h]

theorem decode_of_op_other {w : CommandWord} (h1 : opField w ≠ 0x1#4) (h2 : opField w ≠ 0x2#4)
    (h3 : opField w ≠ 0x3#4) : decode w = .error .opcode := by
  rw [decode, if_neg h1, if_neg h2, if_neg h3]

/-- R58's words, by their fields. -/
def IllegalFields (w : CommandWord) : Prop :=
  opField w = 0x0#4 ∨ 4 ≤ (opField w).toNat ∨
  (opField w = 0x2#4 ∧ w.extractLsb 27 1 ≠ 0#27) ∨
  (opField w = 0x3#4 ∧ argField w ≠ 0#28)

/-- The decoder rejects exactly R58's words. -/
theorem decode_error_iff (w : CommandWord) : (∃ e, decode w = .error e) ↔ IllegalFields w := by
  unfold IllegalFields
  by_cases h1 : opField w = 0x1#4
  · simp [decode_of_op_one h1, h1]
  by_cases h2 : opField w = 0x2#4
  · rw [decode_of_op_two h2]
    split_ifs with harg <;> simp [h2, harg]
  by_cases h3 : opField w = 0x3#4
  · rw [decode_of_op_three h3]
    split_ifs with harg <;> simp [h3, harg]
  have hop : opField w = 0x0#4 ∨ 4 ≤ (opField w).toNat := by
    simp only [← BitVec.toNat_inj, BitVec.toNat_ofNat] at h1 h2 h3 ⊢
    omega
  exact ⟨fun _ => hop.imp_right .inl, fun _ => ⟨_, decode_of_op_other h1 h2 h3⟩⟩

/-! ### The decoder inverts the encoder (R61) -/

theorem encode_new_toNat (cap : Count) : (encode (.new cap)).toNat = 2 ^ 28 + cap.toNat := by
  have hcap := cap.isLt
  rw [encode, BitVec.toNat_or, BitVec.toNat_setWidth, Nat.mod_eq_of_lt (by omega)]
  exact (Nat.shiftLeft_add_eq_or_of_lt hcap 1).symm

theorem decode_encode (i : Instr) : decode (encode i) = .ok i := by
  cases i with
  | new cap =>
    have hcap := cap.isLt
    have hop : opField (encode (.new cap)) = 0x1#4 := BitVec.eq_of_toNat_eq (by
      rw [Machine.opField_toNat, encode_new_toNat]; simp only [BitVec.toNat_ofNat]; omega)
    have harg : argField (encode (.new cap)) = cap := BitVec.eq_of_toNat_eq (by
      rw [Machine.argField_toNat, encode_new_toNat]; omega)
    rw [decode_of_op_one hop, harg]
  | record v => cases v <;> rfl
  | frac => rfl

theorem decode_frac {w : CommandWord} (h : decode w = .ok .frac) : w = 0x30000000#32 := by
  unfold decode at h
  split_ifs at h with _ _ _ h3 harg <;> cases h
  have hop := Machine.opField_toNat w
  have harg' := Machine.argField_toNat w
  rw [h3] at hop
  rw [harg] at harg'
  refine BitVec.eq_of_toNat_eq ?_
  simp only [BitVec.toNat_ofNat] at hop harg' ⊢
  omega

/-- Only encoded words decode. -/
theorem exists_encode_of_decode {w : CommandWord} {i : Instr} (h : decode w = .ok i) : ∃ j, encode j = w := by
  cases i with
  | new cap =>
    obtain ⟨hop, harg⟩ := Machine.decode_new h
    exact ⟨.new cap, BitVec.eq_of_toNat_eq (by rw [encode_new_toNat]; omega)⟩
  | record v =>
    obtain ⟨hop, harg⟩ := Machine.decode_record h
    have hw : w.toNat = (0x20000000#32).toNat ∨ w.toNat = (0x20000001#32).toNat := by
      simp only [BitVec.toNat_ofNat]; omega
    rcases hw with hw | hw
    · exact ⟨.record false, (BitVec.eq_of_toNat_eq hw).symm⟩
    · exact ⟨.record true, (BitVec.eq_of_toNat_eq hw).symm⟩
  | frac => exact ⟨.frac, (decode_frac h).symm⟩

theorem decode_eq_ok_iff (w : CommandWord) (i : Instr) : decode w = .ok i ↔ encode i = w := by
  refine ⟨fun h => ?_, fun h => h ▸ decode_encode i⟩
  obtain ⟨j, rfl⟩ := exists_encode_of_decode h
  rw [decode_encode] at h
  cases h
  rfl

/-! ### The rows of the opcode table (R52, R53, R54) -/

theorem and_tableMask_of_decode {w : CommandWord} {i : Instr} (h : decode w = .ok i) :
    w &&& tableMask i = tableMatch i := by
  rw [← (decode_eq_ok_iff w i).mp h]
  cases i with
  | new cap => exact (Laws.Encoded.new cap).1
  | record v => exact (Laws.Encoded.record v).1
  | frac => exact Laws.Encoded.frac.1

/-- A word is its bits inside a mask together with those outside. -/
theorem eq_or_and_not {w m x : CommandWord} (h : w &&& m = x) : w = x ||| (w &&& ~~~m) := by
  rw [← h, ← BitVec.and_or_distrib_left, BitVec.or_not_self, BitVec.and_allOnes]

theorem decode_of_newMask {w : CommandWord} (h : w &&& 0xF0000000#32 = 0x10000000#32) :
    decode w = .ok (.new (argField w)) := by
  have hrest : w &&& ~~~0xF0000000#32 = (argField w).setWidth 32 := BitVec.eq_of_toNat_eq (by
    have := w.isLt
    rw [BitVec.toNat_and, BitVec.toNat_setWidth, Machine.argField_toNat]
    exact (Nat.and_two_pow_sub_one_eq_mod w.toNat 28).trans (by omega))
  exact (decode_eq_ok_iff _ _).mpr (hrest ▸ eq_or_and_not h).symm

theorem decode_of_recMask {w : CommandWord} (h : w &&& 0xFFFFFFFE#32 = 0x20000000#32) :
    decode w = .ok (.record (w.getLsbD 0)) := by
  have hrest : w &&& ~~~0xFFFFFFFE#32 = (BitVec.ofBool (w.getLsbD 0)).setWidth 32 :=
    BitVec.and_one_eq_setWidth_ofBool_getLsbD
  exact (decode_eq_ok_iff _ _).mpr (hrest ▸ eq_or_and_not h).symm

end Sys2Proof
end

section
/-! Which response a command sends: every one of them is one word in format S (R55), and under the invariants it carries
numbers only for a FRAC after some observation (R57). -/

namespace Sys2Proof.Machine

/-! ### One response to a command (R55) -/

/-- From `s` to `t` one response word is sent, built from a status and a pair, and no event is taken. -/
def RespondsOnce (s t : State) : Prop :=
  t.inputs = s.inputs ∧ ∃ st num den, t.responses = s.responses ++ [responseWord st num den]

theorem respondsOnce_respond (s : State) (st : Status) (num den : Count) : RespondsOnce s (s.respond st num den) :=
  ⟨rfl, st, num, den, rfl⟩

theorem respondsOnce_answer (s : State) (num den : Count) : RespondsOnce s (s.answer num den) := by
  obtain ⟨st, n, d, h⟩ := s.answer_eq_respond num den
  exact h ▸ respondsOnce_respond s st n d

theorem exec_respondsOnce {i : Instr} {s t : State} (h : exec i s = .next t) : RespondsOnce s t := by
  cases i with
  | new cap =>
    obtain ⟨-, rfl⟩ | ⟨-, rfl⟩ | ⟨-, -, rfl⟩ := execNew_cases h
    · exact respondsOnce_respond s _ _ _
    · exact respondsOnce_respond s _ _ _
    · exact respondsOnce_respond (s.create cap) _ _ _
  | record v =>
    obtain ⟨-, rfl⟩ | ⟨-, -, -, next, -, rfl⟩ := execRecord_cases h
    · exact respondsOnce_respond s _ _ _
    · exact respondsOnce_respond (s.recorded v next) _ _ _
  | frac =>
    obtain ⟨-, rfl⟩ | ⟨-, -, rfl⟩ | ⟨-, -, -, sum, -, rfl⟩ := execFrac_cases h
    · exact respondsOnce_respond s _ _ _
    · exact respondsOnce_answer s _ _
    · exact respondsOnce_answer (s.fillMemo sum s.observed) _ _

theorem runCommand_respondsOnce {w : CommandWord} {s t : State} (h : runCommand w s = .next t) : RespondsOnce s t := by
  obtain ⟨i, -, hi⟩ | ⟨-, rfl⟩ := runCommand_cases h
  · exact exec_respondsOnce hi
  · exact respondsOnce_respond s _ _ _

/-! ### The words of R57 -/

theorem Status.code_eq_zero_iff (st : Status) : st.code = 0 ↔ st = .ok := by
  cases st <;> decide

/-- A response without numbers is in R57's list, whatever its status. -/
theorem legalResponse_zero (maxCapacity : Count) (st : Status) : LegalResponse maxCapacity (responseWord st 0 0) := by
  cases st with
  | ok => exact .inl rfl
  | invalidCapacity => exact .inr (.inr (.inl rfl))
  | uninitialized => exact .inr (.inr (.inr (.inl rfl)))
  | noCounter => exact .inr (.inr (.inr (.inr (.inl rfl))))
  | capacityTooLarge => exact .inr (.inr (.inr (.inr (.inr (.inl rfl)))))
  | illegalCommand => exact .inr (.inr (.inr (.inr (.inr (.inr rfl)))))

/-- The count over the observations is in R57's list, after some observation. -/
theorem Inv.legalResponse_total {s : State} (h : Inv s) (hc : s.configured = true) (hobs : s.observed.toNat ≠ 0)
    {num : Count} (hnum : num.toNat = s.total) : LegalResponse s.maxCapacity (responseWord .ok num s.observed) := by
  have htotal := h.total_le_observed hc
  obtain ⟨-, hcap⟩ := h.capacity hc
  obtain ⟨-, hle⟩ := h.ranges hc
  exact .inr (.inl ⟨num, s.observed, by omega, by omega, by omega, responseWord_ok num s.observed⟩)

/-! ### What a command answers under the invariants (R57) -/

theorem State.answer_of_unobserved {s : State} (h : s.observed.toNat = 0) (num den : Count) :
    s.answer num den = s.respond .uninitialized 0 0 := if_pos h

/-- Before any observation FRAC answers Uninitialized (R73). -/
theorem execFrac_uninitialized {s t : State} (hc : s.configured = true) (hobs : s.observed.toNat = 0)
    (h : execFrac s = .next t) : t.responses = s.responses ++ [responseWord .uninitialized 0 0] := by
  obtain ⟨hc', -⟩ | ⟨-, -, rfl⟩ | ⟨-, -, -, sum, -, rfl⟩ := execFrac_cases h
  · simp [hc] at hc'
  · rw [State.answer_of_unobserved hobs, State.respond_responses]
  · rw [State.answer_of_unobserved (s := s.fillMemo sum s.observed) hobs, State.respond_responses,
      State.fillMemo_responses]

/-- What the answer `t` to the command word `w` sends: a word without numbers, of a status other than OK where `w` is
FRAC; or, for FRAC after some observation, the count over the observations (R57). -/
def SendsZerosOrCount (w : CommandWord) (s t : State) : Prop :=
  (∃ st, (decode w = .ok .frac → st ≠ .ok) ∧ t.responses = s.responses ++ [responseWord st 0 0]) ∨
  (decode w = .ok .frac ∧ s.configured = true ∧ s.observed.toNat ≠ 0 ∧
    ∃ num, num.toNat = s.total ∧ t.responses = s.responses ++ [responseWord .ok num s.observed])

theorem execFrac_sendsZerosOrCount {w : CommandWord} {s t : State} (hd : decode w = .ok .frac) (h : Inv s)
    (ht : execFrac s = .next t) : SendsZerosOrCount w s t := by
  cases hc : s.configured with
  | false =>
    cases (execFrac_noCounter hc).symm.trans ht
    exact .inl ⟨.noCounter, fun _ => by decide, rfl⟩
  | true =>
    by_cases hobs : s.observed.toNat = 0
    · exact .inl ⟨.uninitialized, fun _ => by decide, execFrac_uninitialized hc hobs ht⟩
    · obtain ⟨t', num, ht', hresp, hnum⟩ := execFrac_answers_total h hc hobs
      cases ht'.symm.trans ht
      exact .inr ⟨hd, hc, hobs, num, hnum, hresp⟩

theorem runCommand_sendsZerosOrCount {w : CommandWord} {s t : State} (h : Inv s) (ht : runCommand w s = .next t) :
    SendsZerosOrCount w s t := by
  obtain ⟨i, hd, hi⟩ | ⟨⟨e, hd⟩, rfl⟩ := runCommand_cases ht
  · cases i with
    | new cap =>
      obtain ⟨-, rfl⟩ | ⟨-, rfl⟩ | ⟨-, -, rfl⟩ := execNew_cases hi
      · exact .inl ⟨_, by simp [hd], rfl⟩
      · exact .inl ⟨_, by simp [hd], rfl⟩
      · exact .inl ⟨_, by simp [hd], rfl⟩
    | record v =>
      obtain ⟨-, rfl⟩ | ⟨-, -, -, next, -, rfl⟩ := execRecord_cases hi
      · exact .inl ⟨_, by simp [hd], rfl⟩
      · exact .inl ⟨_, by simp [hd], rfl⟩
    | frac => exact execFrac_sendsZerosOrCount hd h hi
  · exact .inl ⟨_, by simp [hd], rfl⟩

end Sys2Proof.Machine
end

section
/-! The words a line of a trace stands for (R62). -/

namespace Sys2Proof.Machine

theorem decode_recWord (v : Bool) : decode (recWord v) = .ok (.record v) := by
  have hword : recWord v = encode (.record v) := by cases v <;> rfl
  rw [hword, decode_encode]

/-- A capacity in range loses nothing in its 28 bits. -/
theorem expand_newCap {cap : Nat} (h : cap ≤ 268435455) :
    (TraceLine.newCap cap).expand = some [encode (.new (BitVec.ofNat 28 cap))] := by
  have hcap : (BitVec.ofNat 28 cap).setWidth 32 = BitVec.ofNat 32 cap :=
    BitVec.setWidth_ofNat_of_le_of_lt (by decide) (by omega)
  rw [encode, hcap]
  exact if_pos (decide_eq_true h)

theorem expand_word {w : Nat} (h : w < 2 ^ 32) : (TraceLine.word w).expand = some [BitVec.ofNat 32 w] :=
  if_pos (decide_eq_true h)

end Sys2Proof.Machine
end

section
/-! The statements of 30_encoding.md settled. -/

namespace Sys2Proof.Machine

/-- Settles O1: the encoder's fields are what the decoder reads, and only encoded words decode. -/
theorem decodeInvertsEncode : Obligations.DecodeInvertsEncode := decode_eq_ok_iff

/-- Settles O2: under the mask a word is the match and its operand. -/
theorem newWordsDecode : Obligations.NewWordsDecode :=
  ⟨fun _ => ⟨fun h => ⟨_, decode_of_newMask h⟩, fun ⟨_, h⟩ => and_tableMask_of_decode h⟩,
    fun cap => decode_encode (.new cap)⟩

/-- Settles O3: under the mask a word is the match and its bit 0; the decoder rejects the others by bits 27:1. -/
theorem recWordsDecode : Obligations.RecWordsDecode :=
  ⟨fun _ => ⟨fun h => ⟨_, decode_of_recMask h⟩, fun ⟨_, h⟩ => and_tableMask_of_decode h⟩,
    decode_recWord false, decode_recWord true,
    fun _ hop harg => (decode_of_op_two hop).trans (if_neg harg)⟩

/-- Settles O4: FRAC's mask is all ones. -/
theorem fracWordDecodes : Obligations.FracWordDecodes := by
  refine ⟨fun w => ?_, fun _ hop harg => (decode_of_op_three hop).trans (if_neg harg)⟩
  have hmask : w &&& 0xFFFFFFFF#32 = w := BitVec.and_allOnes
  rw [hmask, decode_eq_ok_iff, eq_comm]
  rfl

/-- Settles O5: the words of commands are encoded ones, the others are evaluated. -/
theorem sampleWordsDecode : Obligations.SampleWordsDecode :=
  ⟨decode_encode (.new 4), decode_encode (.new 268435455), decode_encode (.record true), decode_encode .frac,
    rfl, rfl, rfl, rfl⟩

/-- Settles O6: R58's words are those the decoder rejects (`decode_error_iff`), and a rejected word is answered
IllegalCommand in every state. -/
theorem illegalWordsAnswered : Obligations.IllegalWordsAnswered := by
  refine ⟨fun s w rest hin hw => ?_, fun w hw => ?_, .inl rfl, .inr (.inl (by decide))⟩
  · obtain ⟨e, he⟩ := (decode_error_iff w).mpr hw
    rw [step_command hin, runCommand_illegal he]
    rfl
  · cases hd : decode w with
    | ok i => exact ⟨i, rfl⟩
    | error e => exact absurd ((decode_error_iff w).mp ⟨e, hd⟩) hw

/-- Settles O7: every word a line expands to is an encoded command, but for WORD, which gives its own. -/
theorem traceLinesExpand : Obligations.TraceLinesExpand := by
  refine ⟨fun cap hcap => ?_, fun v => ⟨_, rfl, decode_recWord v⟩, ⟨_, rfl, rfl⟩, rfl, rfl, fun w => ?_,
    fun v n => ⟨_, rfl, ?_⟩, fun bits => ⟨_, rfl, ?_⟩⟩
  · exact ⟨_, expand_newCap hcap, decode_encode _⟩
  · rw [expand_word w.isLt, BitVec.ofNat_toNat, BitVec.setWidth_eq]
  · rw [List.map_replicate, decode_recWord]
  · rw [List.map_map]
    exact List.map_congr_left fun v _ => decode_recWord v

/-- Settles O42: every way to end a command is one `respond`, whose word is in format S; waiting and a reset send
nothing. -/
theorem oneResponsePerCommand : Obligations.OneResponsePerCommand := by
  intro s t h
  refine ⟨fun w rest hin => ?_, fun hno => ?_⟩
  · rw [step_command hin] at h
    obtain ⟨hinputs, st, num, den, hresp⟩ := runCommand_respondsOnce h
    exact ⟨hinputs, _, st, num, den, hresp, responseWord_toNat st num den, responseZero_responseWord st num den⟩
  · obtain ⟨-, rfl⟩ | ⟨l, rest, -, rfl⟩ | ⟨w, rest, hin, -⟩ := step_cases h
    · rfl
    · rfl
    · exact absurd hin (hno w rest)

/-- Settles O43: a word without numbers, or the count over the observations, which the invariants bound by
`MAX_CAPACITY`. -/
theorem responseFields : Obligations.ResponseFields := by
  intro s w rest h hin
  have hs := h.withInputs rest
  obtain ⟨t, ht⟩ := runCommand_next_of_inv hs w
  obtain ⟨st, hst, hresp⟩ | ⟨hd, hc, hobs, num, hnum, hresp⟩ := runCommand_sendsZerosOrCount hs ht
  · refine ⟨t, _, (step_command hin).trans ht, hresp, legalResponse_zero _ st, fun _ => ?_, fun hd hok => ?_⟩
    · exact ⟨responseNum_responseWord st 0 0, responseDen_responseWord st 0 0⟩
    · rw [responseStatus_responseWord, Status.code_eq_zero_iff] at hok
      exact absurd hok (hst hd)
  · refine ⟨t, _, (step_command hin).trans ht, hresp, hs.legalResponse_total hc hobs hnum, fun hor => ?_,
      fun _ _ => ?_⟩
    · rw [responseStatus_responseWord] at hor
      exact absurd rfl (hor.resolve_left (not_not_intro hd))
    · rw [responseNum_responseWord, responseDen_responseWord]
      exact ⟨hnum, rfl⟩

end Sys2Proof.Machine
end

section
/-! The statements of 40_new.md settled. -/

namespace Sys2Proof.Machine

/-- A fresh counter's words are zero below its word count, and those above are left as they were (R64). -/
theorem read_create_words (s : State) (cap : Count) (i : Nat) :
    (s.create cap).words.read i = if i < (cap.toNat + 63) / 64 then 0 else s.words.read i := by
  rw [State.create_words, Memory.read_clearBelow, nwordsOf_toNat, Memory.unlisted]

/-- Settles O13: the next state is `State.create` with an OK response, and its registers are as `create` writes them. -/
theorem newCreatesCounter : Obligations.NewCreatesCounter := by
  intro cap s h1 hle
  exact ⟨_, execNew_ok h1 hle, rfl, rfl, nwordsOf_toNat cap, rfl, rfl, rfl, rfl, rfl, read_create_words s cap,
    rfl, rfl, rfl⟩

/-- Settles O14: both refusals are `State.raise`, which writes nothing but the response; `MAX_CAPACITY` is not below 0,
and no 28-bit capacity is above its default. -/
theorem newRefusesBadCapacity : Obligations.NewRefusesBadCapacity := by
  refine ⟨execNew_invalid rfl, fun _ _ => execNew_tooLarge, ?_, ?_⟩
  · rintro cap s ⟨rfl, hlt⟩
    exact Nat.not_lt_zero _ hlt
  · intro cap s hmax
    rw [hmax]
    exact Nat.not_lt.mpr (Nat.le_of_lt_succ cap.isLt)

end Sys2Proof.Machine
end

section
/-! The statements of 41_record.md settled. -/

namespace Sys2Proof.Machine

/-! ### What a recorded observation leaves (R67, R68) -/

/-- REC replaces the word under the cursor and no other. -/
theorem read_recorded {s : State} (hwf : s.words.wf = true) (v : Bool) (next : Count) (i : Nat) :
    (s.recorded v next).words.read i =
      if i = s.cursor.toNat / 64 then setSlot (s.words.read i) s.cursor v else s.words.read i := by
  rw [State.observe_words, Memory.read_write hwf, widx_eq]
  split_ifs with hi
  · rw [hi]
  · rfl

/-- The wrap fills the buffer: until it is full, the count is the cursor (R30, R68). -/
theorem Inv.nextObserved_of_wrap {s : State} (h : Inv s) (hc : s.configured = true)
    (hwrap : s.cursor.toNat + 1 = s.capacity.toNat) : nextObserved s.capacity s.observed = s.capacity := by
  obtain ⟨-, hle⟩ := h.ranges hc
  apply BitVec.eq_of_toNat_eq
  rw [nextObserved_toNat hle]
  by_cases hlt : s.observed.toNat < s.capacity.toNat
  · obtain ⟨hcur, -⟩ := h.rampUp hc hlt
    rw [hcur] at hwrap
    omega
  · omega

/-- A full buffer's count stays (R67). -/
theorem nextObserved_full (capacity : Count) : nextObserved capacity capacity = capacity :=
  if_neg (Nat.lt_irrefl _)

/-- After REC there is an observation. -/
theorem Inv.recorded_observed_ne_zero {s : State} (h : Inv s) (hc : s.configured = true) (v : Bool) (next : Count) :
    (s.recorded v next).observed.toNat ≠ 0 := by
  obtain ⟨hcap, -⟩ := h.capacity hc
  obtain ⟨-, hle⟩ := h.ranges hc
  rw [State.observe_observed, nextObserved_toNat hle]
  omega

/-! ### The statements -/

/-- Settles O19: the next state is `State.recorded` with an OK response; with no counter it is `State.raise`; the decoder
rejects a word with any of bits 27:1 set. -/
theorem recRecordsObservation : Obligations.RecRecordsObservation := by
  refine ⟨fun v s h hc => ?_, fun v s hc => execRecord_noCounter hc v, fun s w rest hin hop harg => ?_⟩
  · obtain ⟨next, hnext, ht⟩ := execRecord_of_inv h hc v
    obtain ⟨hcur, hobs⟩ := h.ranges hc
    refine ⟨_, ht, fun i => ?_, nextCursor_toNat hnext hcur, nextObserved_toNat hobs, rfl, hc, rfl, rfl, rfl, rfl, rfl,
      rfl, rfl⟩
    rw [State.respond_words, read_recorded h.wordsWf, setSlot, mask, boff_eq]
  · rw [step_command hin, runCommand_illegal ((decode_of_op_two hop).trans (if_neg harg))]
    rfl

/-- Settles O20: with no counter nothing is written; else one slot of one word is, and three registers. -/
theorem recFrame : Obligations.RecFrame := by
  intro v s t hwf ht
  obtain ⟨-, rfl⟩ | ⟨-, -, -, next, -, rfl⟩ := execRecord_cases ht
  · exact ⟨rfl, rfl, rfl, rfl, rfl, rfl, rfl, fun _ _ => rfl, fun _ _ => rfl, _, rfl⟩
  · refine ⟨rfl, rfl, rfl, rfl, rfl, rfl, rfl, fun i hi => ?_, fun q hq => ?_, _, rfl⟩
    · rw [widx_eq] at hi
      exact (read_recorded hwf v next i).trans (if_neg hi)
    · exact (bitAt_recorded hwf v next q).trans (if_neg hq)

/-- Settles O21: during ramp-up the cursor is at the first slot not written yet, so the REC that wraps is the one that
fills the buffer. -/
theorem recOverwritesAndWraps : Obligations.RecOverwritesAndWraps := by
  intro v s h hc
  obtain ⟨next, hnext, ht⟩ := execRecord_of_inv h hc v
  obtain ⟨hcur, -⟩ := h.ranges hc
  have hbits := bitAt_recorded h.wordsWf v next
  refine ⟨_, ht, (hbits _).trans (if_pos rfl), fun q hq => (hbits q).trans (if_neg hq), fun hlt => ?_, fun hwrap => ?_,
    fun hstep => ?_, fun hfull => ?_⟩
  · obtain ⟨hcurObs, hzero⟩ := h.rampUp hc hlt
    exact hzero _ hcur (by rw [hcurObs])
  · cases hnext.symm.trans (nextCursor_wrap hwrap)
    exact ⟨rfl, h.nextObserved_of_wrap hc hwrap⟩
  · exact (nextCursor_toNat hnext hcur).trans (Nat.mod_eq_of_lt (by omega))
  · rw [State.respond_observed, State.observe_observed, hfull, nextObserved_full]

/-- Settles O30: the invariants hold after the first FRAC and after the REC, which counts an observation, so the last
FRAC answers the count over the observations. -/
theorem recordForcesRecount : Obligations.RecordForcesRecount := by
  intro v s h hc
  obtain ⟨t, ht⟩ := exec_next_of_inv h .frac
  have htInv := exec_keeps_inv h ht
  obtain ⟨hconf, -⟩ := execFrac_frame ht
  have htc := hconf.trans hc
  obtain ⟨next, hnext, hu⟩ := execRecord_of_inv htInv htc v
  have huInv := (htInv.recorded htc v hnext).respond .ok 0 0
  have hobs := htInv.recorded_observed_ne_zero htc v next
  obtain ⟨x, sum, hx, hresp, hsum⟩ := execFrac_answers_total huInv htc hobs
  exact ⟨t, _, x, ht, hu, hx, sum, hsum, Nat.one_le_iff_ne_zero.mpr hobs, hresp⟩

end Sys2Proof.Machine
end

section
/-! The memo: FRAC answers the same whether it hits or misses (R71, R72), and a command that ends in an error status
raises it and does nothing else (R75, R94). -/

namespace Sys2Proof.Machine

/-! ### What FRAC leaves (R71 to R73) -/

/-- An answer appends R73's word or the pair, and writes nothing else. -/
theorem State.answer_eq_append (s : State) (num den : Count) :
    s.answer num den = { s with
      responses := s.responses ++ [if s.observed = 0#28 then 0x2000000000000000#64 else pairWord num den] } := by
  obtain ⟨hobs, ha⟩ | ⟨hobs, ha⟩ := s.answer_eq num den
  · rw [ha, if_pos (BitVec.eq_of_toNat_eq hobs)]
    rfl
  · rw [ha, if_neg (mt (congrArg BitVec.toNat) hobs)]
    rfl

theorem execFrac_hit_append {s : State} (hc : s.configured = true) (hv : s.valid = true) :
    execFrac s = .next { s with
      responses := s.responses ++ [if s.observed = 0#28 then 0x2000000000000000#64 else pairWord s.cnum s.cden] } :=
  (execFrac_hit hc hv).trans (congrArg _ (s.answer_eq_append s.cnum s.cden))

/-- Before any observation a hit answers Uninitialized, whatever the pair (R73). -/
theorem execFrac_hit_unobserved {s : State} (hc : s.configured = true) (hv : s.valid = true)
    (hobs : s.observed = 0#28) :
    execFrac s = .next { s with responses := s.responses ++ [0x2000000000000000#64] } := by
  rw [execFrac_hit_append hc hv, if_pos hobs]

section
variable {s : State} (h : Inv s)
include h

theorem Inv.makeStale : Inv s.makeStale where
  maxCapacity := h.maxCapacity
  wordsWf := h.wordsWf
  wordsInside := h.wordsInside
  unconfigured := fun hc => by
    obtain ⟨hcap, hn, hcur, hobs, -, hnum, hden⟩ := h.unconfigured hc
    exact ⟨hcap, hn, hcur, hobs, rfl, hnum, hden⟩
  capacity := h.capacity
  nwords := h.nwords
  ranges := h.ranges
  rampUp := h.rampUp
  padding := h.padding
  memo := by simp

/-- With no observation there is no set bit (R32). -/
theorem Inv.eq_zero_of_unobserved (hc : s.configured = true) (hobs : s.observed = 0#28) {sum : Count}
    (hsum : sum.toNat = s.total) : sum = 0 := by
  have hle := h.total_le_observed hc
  rw [hobs, ← hsum] at hle
  exact BitVec.eq_of_toNat_eq (Nat.le_zero.mp hle)

/-- Whichever path FRAC takes, it leaves a fresh memo with the count over the observations and answers from that pair:
a miss writes it, and a hit finds it there (R33). -/
theorem Inv.execFrac_eq (hc : s.configured = true) :
    ∃ sum : Count, sum.toNat = s.total ∧ execFrac s = .next { s with
      valid := true
      cnum := sum
      cden := s.observed
      responses := s.responses ++ [if s.observed = 0#28 then 0x2000000000000000#64 else pairWord sum s.observed] } := by
  cases hv : s.valid with
  | false =>
    obtain ⟨sum, hsum, hmiss⟩ := execFrac_miss_of_inv h hc hv
    exact ⟨sum, hsum, hmiss.trans (congrArg _ ((s.fillMemo sum s.observed).answer_eq_append sum s.observed))⟩
  | true =>
    obtain ⟨hnum, hden⟩ := h.memo hc hv
    have hhit := execFrac_hit_append hc hv
    rw [hv, hden] at hhit
    exact ⟨s.cnum, hnum, hhit⟩

/-- What FRAC leaves in the memo (R75). -/
theorem Inv.execFrac_memo {t : State} (hc : s.configured = true) (ht : execFrac s = .next t) :
    t.valid = true ∧ t.cnum.toNat = s.total ∧ t.cden = s.observed := by
  obtain ⟨sum, hsum, heq⟩ := h.execFrac_eq hc
  cases heq.symm.trans ht
  exact ⟨rfl, hsum, rfl⟩

end

/-! ### The value of a pair (R74) -/

theorem val_nonneg (n d : Nat) : 0 ≤ val n d := by
  unfold val
  split_ifs
  · exact le_rfl
  · positivity

theorem val_le_one {n d : Nat} (h : n ≤ d) : val n d ≤ 1 := by
  unfold val
  split_ifs
  · exact zero_le_one
  · exact div_le_one_of_le₀ (Nat.cast_le.mpr h) d.cast_nonneg

/-! ### Commands that end in an error status (R93, R94) -/

theorem expectedStatus_frac {w : CommandWord} (h : decode w = .ok .frac) (s : State) :
    expectedStatus w s =
      if s.configured = false then .noCounter else if s.observed = 0#28 then .uninitialized else .ok := by
  rw [decode_frac h]
  rfl

/-- FRAC ends in an error status only where there is no counter. -/
theorem expectedStatus_frac_ok_or_uninitialized {w : CommandWord} (h : decode w = .ok .frac) (s : State) :
    expectedStatus w s = .ok ∨ expectedStatus w s = .uninitialized ↔ s.configured = true := by
  rw [expectedStatus_frac h]
  split_ifs with hc <;> simp [hc]

theorem expectedStatus_illegal {w : CommandWord} {e : Illegal} (h : decode w = .error e) (s : State) :
    expectedStatus w s = .illegalCommand := by
  have hop := opField_toNat w
  have harg := argField_toNat w
  have hlow : (w.extractLsb 27 1).toNat = w.toNat % 2 ^ 28 / 2 := by
    rw [← argField_extractLsb', BitVec.extractLsb'_toNat, harg, Nat.shiftRight_eq_div_pow]
    omega
  have hfields := (decode_error_iff w).mp ⟨e, h⟩
  simp only [IllegalFields, ne_eq, ← BitVec.toNat_inj, hop, harg, hlow, BitVec.toNat_ofNat] at hfields
  unfold expectedStatus
  rw [if_neg (by omega), if_neg (by omega), if_neg (by omega)]

/-- A command word whose status is an error is answered with it, and nothing is written. -/
theorem runCommand_of_error_status {w : CommandWord} {s t : State} (ht : runCommand w s = .next t)
    (hok : expectedStatus w s ≠ .ok) (huninit : expectedStatus w s ≠ .uninitialized) :
    t = s.raise (expectedStatus w s) := by
  obtain ⟨i, hd, hi⟩ | ⟨⟨e, hd⟩, rfl⟩ := runCommand_cases ht
  · cases i with
    | new cap =>
      have hst := expectedStatus_new hd s
      obtain ⟨h0, rfl⟩ | ⟨hlt, rfl⟩ | ⟨h1, hle, -⟩ := execNew_cases hi
      · rw [hst, if_pos h0]
      · rw [hst, if_neg (by omega), if_pos hlt]
      · exact absurd ((expectedStatus_new_eq_ok hd s).mpr ⟨h1, hle⟩) hok
    | record v =>
      have hst := expectedStatus_record hd s
      obtain ⟨hc, rfl⟩ | ⟨hc, -⟩ := execRecord_cases hi
      · rw [hst, if_pos hc]
      · exact absurd (hst.trans (by rw [hc]; rfl)) hok
    | frac =>
      cases hc : s.configured with
      | false =>
        cases (execFrac_noCounter hc).symm.trans hi
        rw [expectedStatus_frac hd, if_pos hc]
      | true => exact absurd ((expectedStatus_frac_ok_or_uninitialized hd s).mpr hc) (not_or.mpr ⟨hok, huninit⟩)
  · rw [expectedStatus_illegal hd]
    rfl

end Sys2Proof.Machine
end

section
/-! The statements of 42_fraction.md settled. -/

namespace Sys2Proof.Machine

/-- Settles O24: FRAC's answer, whose numerator is at most the observations (R32). -/
theorem fracMissCountsAndFills : Obligations.FracMissCountsAndFills := by
  intro s h hc _
  obtain ⟨sum, hsum, ht⟩ := h.execFrac_eq hc
  exact ⟨sum, hsum, h.total_le_observed hc, ht⟩

/-- Settles O25: the memo holds the count over the observations (R33), which is what the miss path finds in the same
state with a stale memo. -/
theorem fracHitAnswersFromMemo : Obligations.FracHitAnswersFromMemo := by
  intro s hc hv
  refine ⟨_, rfl, execFrac_hit_append hc hv, fun h => ?_⟩
  obtain ⟨hnum, hden⟩ := h.memo hc hv
  obtain ⟨sum, hsum, hmiss⟩ := h.makeStale.execFrac_eq hc
  have hsame : sum = s.cnum := BitVec.eq_of_toNat_eq (hsum.trans hnum.symm)
  refine ⟨hden, fun hobs => h.eq_zero_of_unobserved hc hobs hnum, _, hmiss, ?_⟩
  rw [hsame, hden]
  rfl

/-- Settles O26: the count is 0, and the memo FRAC leaves makes the second one hit. -/
theorem zeroObservationsUninitialized : Obligations.ZeroObservationsUninitialized := by
  intro s h hc (hobs : s.observed = 0#28)
  obtain ⟨sum, hsum, ht⟩ := h.execFrac_eq hc
  rw [h.eq_zero_of_unobserved hc hobs hsum, if_pos hobs] at ht
  exact ⟨_, ht, by rw [hobs]; rfl, execFrac_hit_unobserved hc rfl hobs⟩

/-- Settles O31: FRAC sends zeros, or the count over the observations, which is no more than they are (R32). -/
theorem fractionInUnitInterval : Obligations.FractionInUnitInterval := by
  refine ⟨if_pos rfl, fun s h => ?_⟩
  obtain ⟨t, ht⟩ := exec_next_of_inv h .frac
  obtain ⟨st, -, hresp⟩ | ⟨-, hc, -, num, hnum, hresp⟩ := execFrac_sendsZerosOrCount (decode_encode .frac) h ht
  · refine ⟨t, _, ht, hresp, ?_⟩
    rw [responseNum_responseWord, responseDen_responseWord]
    exact ⟨le_rfl, val_nonneg _ _, val_le_one le_rfl⟩
  · refine ⟨t, _, ht, hresp, ?_⟩
    rw [responseNum_responseWord, responseDen_responseWord, hnum]
    have hle := h.total_le_observed hc
    exact ⟨hle, val_nonneg _ _, val_le_one hle⟩

/-- Settles O32: row by row, the update each command makes; the rows of an error status are `State.raise`. -/
theorem memoTransitions : Obligations.MemoTransitions := by
  intro s t h ht
  refine ⟨fun hc => ?_, fun l rest hin => ?_, fun w rest hin => ?_⟩
  · obtain ⟨-, -, -, -, hv, -⟩ := h.unconfigured hc
    exact hv
  · cases (step_reset hin).symm.trans ht
    exact ⟨rfl, rfl, rfl⟩
  · rw [step_command hin] at ht
    have herror : expectedStatus w s ≠ .ok → expectedStatus w s ≠ .uninitialized →
        t.valid = s.valid ∧ t.cnum = s.cnum ∧ t.cden = s.cden := fun hok huninit => by
      rw [runCommand_of_error_status ht hok huninit]
      exact ⟨rfl, rfl, rfl⟩
    refine ⟨fun cap hd hok => ?_, fun cap hd hne => herror hne ?_, fun v hd hok => ?_, fun hd hst => ?_,
      fun hst => ?_⟩
    · obtain ⟨h1, hle⟩ := (expectedStatus_new_eq_ok hd (s.withInputs rest)).mp hok
      cases (execNew_ok h1 hle).symm.trans ((runCommand_legal hd _).symm.trans ht)
      exact ⟨rfl, rfl, rfl⟩
    · rw [expectedStatus_new hd]
      split_ifs <;> decide
    · obtain ⟨hc, -⟩ | ⟨-, -, -, next, -, rfl⟩ := execRecord_cases ((runCommand_legal hd _).symm.trans ht)
      · rw [expectedStatus_record hd, if_pos (show s.configured = false from hc)] at hok
        cases hok
      · exact ⟨rfl, rfl, rfl⟩
    · have hfrac : execFrac (s.withInputs rest) = .next t := (runCommand_legal hd _).symm.trans ht
      have hc : s.configured = true := (expectedStatus_frac_ok_or_uninitialized hd s).mp hst
      obtain ⟨hvalid, hnum, hden⟩ := (h.withInputs rest).execFrac_memo hc hfrac
      obtain ⟨-, -, -, -, -, -, -, -, hkeep, -⟩ := execFrac_frame hfrac
      exact ⟨hvalid, fun _ => ⟨hnum, hden⟩, fun hv => (hkeep (.inl hv)).2⟩
    · exact herror (fun hok => by simp [hok] at hst) (fun huninit => by simp [huninit] at hst)

end Sys2Proof.Machine
end

section
/-! The statements of 43_popcount.md settled. -/

namespace Sys2Proof.Machine

/-- `TOTAL` as the sum R82 writes out. -/
theorem total_eq_sum (m : Memory) (n : Nat) : total m n = ((List.range n).map fun i => popcount (m.read i)).sum := by
  induction n with
  | zero => rfl
  | succ n ih => rw [List.sum_range_succ, total, ih]

/-- Settles O33: the last mask keeps lane 0 of stage `f`, which holds the count of the word. -/
theorem pcOneCountsBits : Obligations.PcOneCountsBits := pc1_eq_popcount

/-- Settles O34: the last mask keeps lane 0 of stage `h3`, which holds the count of the four words; 256 fits its 9
bits. -/
theorem pcFourCountsBits : Obligations.PcFourCountsBits := pc4_eq_popcount

/-- Settles O35: the groups and the tail together are `TOTAL`, which is the sum. -/
theorem reduceCountsBits : Obligations.ReduceCountsBits := fun m n => (reduce_eq_total m n).trans (total_eq_sum m n)

/-- Settles O36: one lemma per row of R83's table; no row needs the bound on the lane's number, for above bit 63 the
lanes are 0 and no bits are set. -/
theorem lanesHoldCounts : Obligations.LanesHoldCounts := fun w w' w2 w3 =>
  ⟨fun k _ => lane_one w k,
    fun k _ => lane_pairSums w k,
    fun k _ => lane_nibbleSums w k,
    fun k _ => lane_byteSums w k,
    fun k _ => lane_mergePair w w' k,
    fun k _ => lane_widenNibbles_mergePair w w' k,
    fun k _ => lane_mergeGroup w w' w2 w3 k,
    fun k _ => lane_widenBytes_mergeGroup w w' w2 w3 k,
    lane_foldBytes_byteSums w,
    lane_foldHalves_widenBytes w w' w2 w3⟩

end Sys2Proof.Machine
end

section
/-! The status every command word is answered with (R93), in any state in which the command is answered. -/

namespace Sys2Proof.Machine

/-- From `s` to `t` one response is sent, with the status `st` and some pair. -/
def SendsStatus (st : Status) (s t : State) : Prop :=
  ∃ num den, t.responses = s.responses ++ [responseWord st num den]

theorem sendsStatus_respond (s : State) (st : Status) (num den : Count) : SendsStatus st s (s.respond st num den) :=
  ⟨num, den, rfl⟩

theorem sendsStatus_raise (s : State) (st : Status) : SendsStatus st s (s.raise st) := sendsStatus_respond s st 0 0

theorem sendsStatus_answer (s : State) (num den : Count) :
    SendsStatus (if s.observed = 0#28 then .uninitialized else .ok) s (s.answer num den) := by
  split_ifs with hobs
  · rw [State.answer_of_unobserved (congrArg BitVec.toNat hobs)]
    exact sendsStatus_respond s _ _ _
  · rw [State.answer_of_observed (fun h => hobs (BitVec.eq_of_toNat_eq h))]
    exact sendsStatus_respond s _ _ _

theorem execNew_sendsStatus {w : CommandWord} {cap : Count} {s t : State} (hd : decode w = .ok (.new cap))
    (h : execNew cap s = .next t) : SendsStatus (expectedStatus w s) s t := by
  rw [expectedStatus_new hd]
  obtain ⟨h0, rfl⟩ | ⟨hlt, rfl⟩ | ⟨h1, hle, rfl⟩ := execNew_cases h
  · rw [if_pos h0]
    exact sendsStatus_raise s _
  · rw [if_neg (by omega), if_pos hlt]
    exact sendsStatus_raise s _
  · rw [if_neg (by omega), if_neg (by omega)]
    exact sendsStatus_respond (s.create cap) _ _ _

theorem execRecord_sendsStatus {w : CommandWord} {v : Bool} {s t : State} (hd : decode w = .ok (.record v))
    (h : execRecord v s = .next t) : SendsStatus (expectedStatus w s) s t := by
  rw [expectedStatus_record hd]
  obtain ⟨hc, rfl⟩ | ⟨hc, -, -, next, -, rfl⟩ := execRecord_cases h
  · rw [if_pos hc]
    exact sendsStatus_raise s _
  · rw [if_neg (by simp [hc])]
    exact sendsStatus_respond (s.recorded v next) _ _ _

/-- A hit and a miss both answer by the observation count, which filling the memo leaves alone (R71 to R73). -/
theorem execFrac_sendsStatus {w : CommandWord} {s t : State} (hd : decode w = .ok .frac) (h : execFrac s = .next t) :
    SendsStatus (expectedStatus w s) s t := by
  rw [expectedStatus_frac hd]
  obtain ⟨hc, rfl⟩ | ⟨hc, -, rfl⟩ | ⟨hc, -, -, sum, -, rfl⟩ := execFrac_cases h
  · rw [if_pos hc]
    exact sendsStatus_raise s _
  · rw [if_neg (by simp [hc])]
    exact sendsStatus_answer s _ _
  · rw [if_neg (by simp [hc])]
    exact sendsStatus_answer (s.fillMemo sum s.observed) _ _

/-- A command word that is answered is answered with the status of R93. -/
theorem runCommand_sendsStatus {w : CommandWord} {s t : State} (h : runCommand w s = .next t) :
    SendsStatus (expectedStatus w s) s t := by
  obtain ⟨i, hd, hi⟩ | ⟨⟨e, hd⟩, rfl⟩ := runCommand_cases h
  · cases i with
    | new cap => exact execNew_sendsStatus hd hi
    | record v => exact execRecord_sendsStatus hd hi
    | frac => exact execFrac_sendsStatus hd hi
  · rw [expectedStatus_illegal hd]
    exact sendsStatus_raise s _

/-- The last response tells the status of the command that sent it. -/
theorem SendsStatus.responseStatus_eq {st : Status} {s t : State} {r : ResponseWord} (h : SendsStatus st s t)
    (hresp : t.responses = s.responses ++ [r]) : responseStatus r = st.code := by
  obtain ⟨num, den, hsent⟩ := h
  have hr : r = responseWord st num den := List.singleton_inj.mp (List.append_cancel_left (hresp.symm.trans hsent))
  rw [hr, responseStatus_responseWord]

end Sys2Proof.Machine
end

section
/-! The statements of 60_exceptions.md settled. -/

namespace Sys2Proof.Machine

/-- Settles O41: under the invariants the command is answered, and with the status of R93; taking the word from the port
does not change that status. -/
theorem statusOfEveryWord : Obligations.StatusOfEveryWord := by
  intro s w rest h hin
  obtain ⟨t, ht⟩ := runCommand_next_of_inv (h.withInputs rest) w
  obtain ⟨num, den, hresp⟩ := runCommand_sendsStatus ht
  exact ⟨t, _, (step_command hin).trans ht, hresp, responseStatus_responseWord _ num den⟩

/-- Settles O44: the response's status is that of R93, so it is neither OK nor Uninitialized, and the command was a
`State.raise`. -/
theorem errorsWriteNothing : Obligations.ErrorsWriteNothing := by
  intro s t w rest r hin hstep hresp hst
  rw [step_command hin] at hstep
  rw [(runCommand_sendsStatus hstep).responseStatus_eq hresp] at hst
  have ht : t = (s.withInputs rest).raise (expectedStatus w (s.withInputs rest)) :=
    runCommand_of_error_status hstep (fun hok => by simp [hok, Status.code] at hst)
      (fun huninit => by simp [huninit, Status.code] at hst)
  rw [← hresp, ht]
  rfl

/-- Settles O22: both commands raise NoCounter, whatever the other registers hold. -/
theorem noCounterAnswered : Obligations.NoCounterAnswered := fun _ hc =>
  ⟨execRecord_noCounter hc, execFrac_noCounter hc⟩

end Sys2Proof.Machine
end

section
/-! The ports edge by edge (R102 to R105): what one clock edge does in each phase of the handshake, and from that what
the edges of one command do, from the offer until `cmd_ready` returns. -/

namespace Sys2Proof.Machine

/-! ### One edge -/

theorem clockEdge_of_rst {i : PortIn} (h : i.rst = true) (c : Clocked) :
    clockEdge c i = .next { state := c.state.hardwareReset i.leftover, phase := Phase.waiting i.pause } := if_pos h

section NoReset
variable {i : PortIn} (hrst : i.rst = false)
include hrst

theorem clockEdge_ready_offered (hv : i.cmdValid = true) (s : State) :
    clockEdge { state := s, phase := .ready } i = proceed i.cmdWord i.latency i.pause s := by
  simp only [clockEdge, hrst, hv, Bool.false_eq_true, if_false, if_true]

theorem clockEdge_busy (w : CommandWord) (wait pause : Nat) (s : State) :
    clockEdge { state := s, phase := .busy w wait pause } i = proceed w wait pause s := by
  simp only [clockEdge, hrst, Bool.false_eq_true, if_false]

theorem clockEdge_responding (pause : Nat) (s : State) :
    clockEdge { state := s, phase := .responding pause } i = .next { state := s, phase := Phase.waiting pause } := by
  simp only [clockEdge, hrst, Bool.false_eq_true, if_false]

theorem clockEdge_recovering (n : Nat) (s : State) :
    clockEdge { state := s, phase := .recovering n } i = .next { state := s, phase := Phase.waiting n } := by
  simp only [clockEdge, hrst, Bool.false_eq_true, if_false]

end NoReset

theorem proceed_succ (w : CommandWord) (n pause : Nat) (s : State) :
    proceed w (n + 1) pause s = .next { state := s, phase := .busy w n pause } := (rfl)

theorem proceed_zero {w : CommandWord} {s t : State} (h : runCommand w s = .next t) (pause : Nat) :
    proceed w 0 pause s = .next { state := t, phase := .responding pause } := by
  simp only [proceed, h]

/-! ### The pins (R104) -/

theorem rsp_waiting (s : State) (n : Nat) : Clocked.rsp { state := s, phase := Phase.waiting n } = none := by
  cases n <;> rfl

theorem phase_of_rsp {c : Clocked} (h : c.rsp ≠ none) : ∃ pause, c.phase = .responding pause := by
  obtain ⟨s, phase⟩ := c
  cases phase with
  | responding pause => exact ⟨pause, rfl⟩
  | ready | busy | recovering => exact absurd rfl h

/-- The edge that ends the cycle of `rsp_valid` leads to the wait for `cmd_ready`, with a reset or without. -/
theorem clockEdge_of_responding {c : Clocked} {pause : Nat} (h : c.phase = .responding pause) (i : PortIn) :
    ∃ s n, clockEdge c i = .next { state := s, phase := Phase.waiting n } := by
  obtain ⟨s, _⟩ := c
  obtain rfl := h
  cases hrst : i.rst with
  | true => exact ⟨_, _, clockEdge_of_rst hrst _⟩
  | false => exact ⟨_, _, clockEdge_responding hrst pause s⟩

/-! ### Runs of edges -/

theorem clockEdges_cons {c c' : Clocked} {i : PortIn} (h : clockEdge c i = .next c') (is : List PortIn) :
    clockEdges c (i :: is) = clockEdges c' is := by
  simp only [clockEdges, h]

theorem clockEdges_append {c c' : Clocked} {is : List PortIn} (h : clockEdges c is = .next c') (js : List PortIn) :
    clockEdges c (is ++ js) = clockEdges c' js := by
  induction is generalizing c with
  | nil => cases h; rfl
  | cons i is ih =>
    rw [List.cons_append]
    cases hi : clockEdge c i with
    | next d => rw [clockEdges_cons hi] at h ⊢; exact ih h
    | fault f => simp [clockEdges, hi] at h
    | refused r => simp [clockEdges, hi] at h

/-- More edges to wait than there are: the command stays in the block, and the state as it was. The first edge is the
one of the acceptance or a later one, which do the same. -/
theorem clockEdges_busy {w : CommandWord} {n pause : Nat} {s : State} {c : Clocked} {i : PortIn} {is : List PortIn}
    (hrst : ∀ j ∈ is, j.rst = false) (h : clockEdge c i = proceed w (is.length + n + 1) pause s) :
    clockEdges c (i :: is) = .next { state := s, phase := .busy w n pause } := by
  rw [clockEdges_cons (h.trans (proceed_succ ..))]
  induction is generalizing c i with
  | nil => rw [List.length_nil, Nat.zero_add]; rfl
  | cons j js ih =>
    obtain ⟨hj, hjs⟩ := List.forall_mem_cons.mp hrst
    have hedge : clockEdge { state := s, phase := .busy w (js.length + 1 + n) pause } j =
        proceed w (js.length + n + 1) pause s := by
      rw [clockEdge_busy hj, Nat.add_right_comm]
    rw [List.length_cons, clockEdges_cons (hedge.trans (proceed_succ ..))]
    exact ih hjs hedge

/-- As many edges as there are to wait: the command completes at the last one. -/
theorem clockEdges_complete {w : CommandWord} {pause : Nat} {s t : State} (hrun : runCommand w s = .next t)
    {c : Clocked} {i : PortIn} {is : List PortIn} (hrst : ∀ j ∈ is, j.rst = false)
    (h : clockEdge c i = proceed w is.length pause s) :
    clockEdges c (i :: is) = .next { state := t, phase := .responding pause } := by
  induction is generalizing c i with
  | nil => exact clockEdges_cons (h.trans (proceed_zero hrun pause)) []
  | cons j js ih =>
    obtain ⟨hj, hjs⟩ := List.forall_mem_cons.mp hrst
    rw [clockEdges_cons (h.trans (proceed_succ ..))]
    exact ih hjs (clockEdge_busy hj ..)

theorem clockEdges_waiting (s : State) {is : List PortIn} (hrst : ∀ j ∈ is, j.rst = false) :
    clockEdges { state := s, phase := Phase.waiting is.length } is = .next { state := s, phase := .ready } := by
  induction is with
  | nil => rfl
  | cons j js ih =>
    obtain ⟨hj, hjs⟩ := List.forall_mem_cons.mp hrst
    exact (clockEdges_cons (clockEdge_recovering hj js.length s) js).trans (ih hjs)

theorem clockEdges_responding (s : State) {pause : Nat} {is : List PortIn} (hrst : ∀ j ∈ is, j.rst = false)
    (hlen : is.length = pause + 1) :
    clockEdges { state := s, phase := .responding pause } is = .next { state := s, phase := .ready } := by
  cases is with
  | nil => cases hlen
  | cons j js =>
    obtain ⟨hj, hjs⟩ := List.forall_mem_cons.mp hrst
    obtain rfl : js.length = pause := Nat.succ.inj hlen
    rw [clockEdges_cons (clockEdge_responding hj _ s)]
    exact clockEdges_waiting s hjs

/-! ### A word offered next, at the command level (R105) -/

theorem step_offer (s : State) (w : CommandWord) : step (s.offer w) = runCommand w s := step_command rfl

theorem decode_of_decodeTableWord {nbits w : Nat} {i : Instr} (h : decodeTableWord nbits w = some i) :
    decode (tableWord nbits w) = .ok i := by
  unfold decodeTableWord at h
  split at h
  · cases hd : decode (tableWord nbits w) with
    | ok j => rw [hd] at h; cases h; rfl
    | error e => rw [hd] at h; cases h
  · cases h

end Sys2Proof.Machine
end

section
/-! The statements of 70_reset_and_hazards.md settled. -/

namespace Sys2Proof.Machine

/-- Settles O54: the edge of the offer and every edge of the wait `proceed` with the command, so it completes at the
last of them, and what it computes there is what `step` computes; the pause then runs down to readiness. -/
theorem handshakeRefinesStep : Obligations.HandshakeRefinesStep := by
  intro s t w offer wait after hstep hrst hvalid hword hwait hlat hafter hpause
  have hrun : runCommand w s = .next t := (step_offer s w).symm.trans hstep
  have haccept : clockEdge { state := s, phase := .ready } offer = proceed w wait.length offer.pause s := by
    rw [clockEdge_ready_offered hrst hvalid, hword, hlat]
  have hcomplete := clockEdges_complete hrun hwait haccept
  refine ⟨fun k hk => ?_, ⟨_, hcomplete, rfl, rfl, ?_⟩, ?_⟩
  · have hleft : wait.length = (wait.take k).length + (wait.length - k - 1) + 1 := by
      rw [List.length_take]; omega
    have hbusy := clockEdges_busy (fun j hj => hwait j (List.mem_of_mem_take hj)) (haccept.trans (by rw [← hleft]))
    exact ⟨_, hbusy, rfl, rfl, rfl⟩
  · obtain ⟨-, st, num, den, hresp⟩ := runCommand_respondsOnce hrun
    exact ⟨_, (congrArg List.getLast? hresp).trans List.getLast?_concat, hresp⟩
  · exact (clockEdges_append hcomplete after).trans (clockEdges_responding t hafter hpause)

/-- Settles O9: the offer puts the row's word in front of the events, and the step that takes it from there runs on the
state as it was before the offer. -/
theorem offeredWordRuns : Obligations.OfferedWordRuns := fun s _ _ _ h =>
  (step_offer s _).trans (runCommand_legal (decode_of_decodeTableWord h) s)

/-- Settles O10: without an event the step is the identity. -/
theorem waitingChangesNothing : Obligations.WaitingChangesNothing := fun _ => step_waiting

/-- Settles O51: the edge writes what a reset event writes, in every phase. -/
theorem resetEdgeWins : Obligations.ResetEdgeWins := fun c _ h =>
  ⟨_, clockEdge_of_rst h c, rfl, rfl, rfl, rfl, rfl, rfl, rfl, rfl, rfl, rfl, rfl, step_reset rfl⟩

/-- Settles O52: a response stands only in the phase `responding`, and every edge leads from it to `Phase.waiting`. -/
theorem responseLastsOneCycle : Obligations.ResponseLastsOneCycle := by
  intro c c' i hrsp hedge
  obtain ⟨pause, hphase⟩ := phase_of_rsp hrsp
  obtain ⟨s, n, hnext⟩ := clockEdge_of_responding hphase i
  cases hedge.symm.trans hnext
  exact ⟨by rw [Clocked.cmdReady, hphase], rsp_waiting s n⟩

/-- Settles O53: in each phase other than `ready` the edge's equation does not mention the offer. -/
theorem notReadyIgnoresOffer : Obligations.NotReadyIgnoresOffer := by
  intro c i w b hready hrst
  have hrst' : ({ i with cmdValid := b, cmdWord := w } : PortIn).rst = false := hrst
  obtain ⟨s, phase⟩ := c
  cases phase with
  | ready => cases hready
  | busy => rw [clockEdge_busy hrst, clockEdge_busy hrst']
  | responding => rw [clockEdge_responding hrst, clockEdge_responding hrst']
  | recovering => rw [clockEdge_recovering hrst, clockEdge_recovering hrst']

end Sys2Proof.Machine
end
